-- ==== Sys2Proof/Word.lean ====
section
/-! DEFINITION. The words the BigInt core moves: a 32-bit command or response word, a 16-bit
immediate or status-register value, an 8-bit immediate, and a 4-bit register field
(00_scope.md R10, 30_encoding.md R56, R59). -/

namespace Sys2Proof

/-- A command word or a response word (00_scope.md R10). -/
abbrev Word := BitVec 32

/-- A 16-bit immediate, a status-register value, or the data field of a response (R10, R31, R59). -/
abbrev Half := BitVec 16

/-- An 8-bit immediate or a status code (R10, R58). -/
abbrev Byte := BitVec 8

/-- A four-bit register field of a command word (30_encoding.md R56). -/
abbrev Nibble := BitVec 4

end Sys2Proof
end

