-- ==== Sys2Proof/Config.lean ====
section
/-! DEFINITION. What one instance of the block fixes: the parameter MAXD (00_scope.md R9) and the
constants every instance shares (R6, R8, 10_state.md R31).

The spec leaves nothing free (93_implementation_defined.md, end of section 2), so there is no free
value here. MAXD is a parameter the model takes as an argument (R9, R36): it is carried by the
state in a record of its own that no step writes (log entry 1), so that a statement about every
state holds for every MAXD. -/

namespace Sys2Proof

/-- The parameters of one instance of the block. -/
structure Config where
  /-- `MAXD`, the largest number of decimal digits a register can hold (00_scope.md R9). -/
  maxd : Nat
  deriving DecidableEq, Repr

/-- The default instance, `MAXD = 1024` (00_scope.md R9). -/
def Config.standard : Config := { maxd := 1024 }

/-- The range the spec gives MAXD: `1 <= MAXD <= 65535` (00_scope.md R9). -/
def Config.wf (c : Config) : Bool := decide (1 ≤ c.maxd) && decide (c.maxd ≤ 65535)

/-- `RADIX = 10` (00_scope.md R6). -/
abbrev Config.radix : Nat := 10

/-- `NREG = 8` (00_scope.md R8). -/
abbrev Config.nreg : Nat := 8

/-- The constant of status register ID (10_state.md R31). -/
def Config.idValue : Half := 0x0415

/-- The constant of status register VERSION: major 1, minor 0 (10_state.md R31). -/
def Config.versionValue : Half := 0x0100

end Sys2Proof
end

