-- ==== Sys2Proof/Syntax.lean ====
section
/-! DEFINITION. The syntax of the 23 commands, one constructor per row of spec/opcode_table.json
(30_encoding.md R62). A register number is below 8 by its type (R56: the field's top bit is 0); the
other fields are the bits the format gives them (R57, R58). -/

namespace Sys2Proof

/-- The number of a BigInt register, B0 to B7 (10_state.md R21). -/
abbrev RegId := Fin 8

/-- The commands of 30_encoding.md R62, with the operands of R57, in the order of the word's fields
`rd`, `ra`, `rb`, `rc`, immediate. -/
inductive Instr where
  /-- NOP (R80). -/
  | nop
  /-- CLRE: leave Halted and clear the error record (R81). -/
  | clre
  /-- RDSR idx: read a status register (R82). -/
  | rdsr (idx : Byte)
  /-- BEGIN Bd, s: open `Bd` with the sign `s`, true for negative (R84). -/
  | beginNum (rd : RegId) (sign : Bool)
  /-- PUSHD Bd, c: append the digit code `c` (R85). -/
  | pushd (rd : RegId) (code : Byte)
  /-- END Bd: close and canonicalise (R86). -/
  | endNum (rd : RegId)
  /-- SETI Bd, n: set from a signed 16-bit immediate (R88). -/
  | seti (rd : RegId) (imm : Half)
  /-- MOV Bd, Ba: copy (R89). -/
  | mov (rd ra : RegId)
  /-- NEG Bd, Ba: negate (R90). -/
  | neg (rd ra : RegId)
  /-- LEN Ba: length, sign and parity (R92). -/
  | len (ra : RegId)
  /-- GETD Ba, k: the digit at index `k` (R93). -/
  | getd (ra : RegId) (index : Half)
  /-- CMP Ba, Bb: compare (R96). -/
  | cmp (ra rb : RegId)
  /-- ADD Bd, Ba, Bb (R115). -/
  | add (rd ra rb : RegId)
  /-- SUB Bd, Ba, Bb (R116). -/
  | sub (rd ra rb : RegId)
  /-- MUL Bd, Ba, Bb (R132). -/
  | mul (rd ra rb : RegId)
  /-- DIV Bd, Ba, Bb: the quotient (R143). -/
  | div (rd ra rb : RegId)
  /-- REM Bd, Ba, Bb: the signed remainder (R144). -/
  | rem (rd ra rb : RegId)
  /-- DIVMOD: the quotient goes to `rd`, the remainder to `rc`; `ra` is the dividend and `rb` the
  divisor (R145). -/
  | divmod (rd ra rb rc : RegId)
  /-- MODN Bd, Ba, Bm, with the modulus in `rc` (R156). -/
  | modn (rd ra rc : RegId)
  /-- MODMUL Bd, Ba, Bb, Bm, with the modulus in `rc` (R157). -/
  | modmul (rd ra rb rc : RegId)
  /-- MODEXP Bd, Ba, Be, Bm: base in `ra`, exponent in `rb`, modulus in `rc` (R166). -/
  | modexp (rd ra rb rc : RegId)
  /-- GCD Bd, Ba, Bb (R176). -/
  | gcd (rd ra rb : RegId)
  /-- MODINV Bd, Ba, Bm: the value to invert in `ra`, the modulus in `rc` (R178). -/
  | modinv (rd ra rc : RegId)
  deriving DecidableEq, Repr

end Sys2Proof
end

