-- ==== Sys2Proof/WellFormed.lean ====
section
/-! DEFINITION. Which terms of Instr are commands of the block. Register numbers and immediates are
in range by their types; the one check left is 30_encoding.md R66. -/

namespace Sys2Proof

/-- DIVMOD may not send quotient and remainder to the same register; no other register coincidence
is illegal (30_encoding.md R66). -/
def Instr.wf : Instr → Bool
  | .divmod rd _ _ rc => decide (rd ≠ rc)
  | .nop | .clre | .rdsr _ | .beginNum _ _ | .pushd _ _ | .endNum _ | .seti _ _
  | .mov _ _ | .neg _ _ | .len _ | .getd _ _ | .cmp _ _
  | .add _ _ _ | .sub _ _ _ | .mul _ _ _ | .div _ _ _ | .rem _ _ _
  | .modn _ _ _ | .modmul _ _ _ _ | .modexp _ _ _ _ | .gcd _ _ _ | .modinv _ _ _ => true

end Sys2Proof
end

