-- ==== Sys2Proof/Decode.lean ====
section
/-! DEFINITION. The decoder of 30_encoding.md R69 over the mask and match table of R62, and the
encoder written from the formats of R56 to R58. Decoding is total on the 2^32 words and needs no
state; a word it rejects is rejected under the name of the reason (R63, R64, R66). -/

namespace Sys2Proof

/-- Why a word is illegal. -/
inductive Illegal where
  /-- Its opcode byte is none of R62's (R63). -/
  | reservedOpcode
  /-- A must-be-zero bit is set, the top bit of a register field among them (R64). -/
  | reservedBits
  /-- DIVMOD with `rd = rc` (R66). -/
  | sameDestination
  deriving DecidableEq, Repr

/-- What the decoder answers on a word (R69). -/
inductive Decoded where
  | instr (i : Instr)
  | illegal (why : Illegal)
  deriving DecidableEq, Repr

/-! ### The fields of a command word (R56) -/

/-- `w[31:24]`. -/
def opField (w : Word) : Byte := w.extractLsb' 24 8

/-- The register number in the low three bits of the four-bit field at bit `lo` (R56). -/
def regField (w : Word) (lo : Nat) : RegId :=
  ⟨(w.extractLsb' lo 3).toNat, (w.extractLsb' lo 3).isLt⟩

/-- Field `rd`, `w[23:20]`. -/
def rdField (w : Word) : RegId := regField w 20

/-- Field `ra`, `w[19:16]`. -/
def raField (w : Word) : RegId := regField w 16

/-- Field `rb`, `w[15:12]`. -/
def rbField (w : Word) : RegId := regField w 12

/-- Field `rc`, `w[11:8]`. -/
def rcField (w : Word) : RegId := regField w 8

/-- `w[7:0]`. -/
def i8Field (w : Word) : Byte := w.extractLsb' 0 8

/-- `w[15:0]`. -/
def i16Field (w : Word) : Half := w.extractLsb' 0 16

/-! ### The table of R62 -/

/-- One row of R62: a word is this command exactly when `w &&& mask = pattern`; `build` reads its
fields. -/
structure Row where
  mask : Word
  pattern : Word
  build : Word → Instr

/-- The system and construction rows of R62. -/
def systemRows : List Row :=
  [ ⟨0xFFFFFFFF, 0x00000000, fun _ => .nop⟩,
    ⟨0xFFFFFFFF, 0x01000000, fun _ => .clre⟩,
    ⟨0xFFFFFF00, 0x02000000, fun w => .rdsr (i8Field w)⟩,
    ⟨0xFF8FFFFE, 0x08000000, fun w => .beginNum (rdField w) (w.getLsbD 0)⟩,
    ⟨0xFF8FFF00, 0x09000000, fun w => .pushd (rdField w) (i8Field w)⟩,
    ⟨0xFF8FFFFF, 0x0A000000, fun w => .endNum (rdField w)⟩,
    ⟨0xFF8F0000, 0x0B000000, fun w => .seti (rdField w) (i16Field w)⟩ ]

/-- The move, read-back and comparison rows of R62. -/
def moveRows : List Row :=
  [ ⟨0xFF88FFFF, 0x0C000000, fun w => .mov (rdField w) (raField w)⟩,
    ⟨0xFF88FFFF, 0x0D000000, fun w => .neg (rdField w) (raField w)⟩,
    ⟨0xFFF8FFFF, 0x0E000000, fun w => .len (raField w)⟩,
    ⟨0xFFF80000, 0x0F000000, fun w => .getd (raField w) (i16Field w)⟩,
    ⟨0xFFF88FFF, 0x10000000, fun w => .cmp (raField w) (rbField w)⟩ ]

/-- The adder, multiplier and divider rows of R62. -/
def arithRows : List Row :=
  [ ⟨0xFF888FFF, 0x20000000, fun w => .add (rdField w) (raField w) (rbField w)⟩,
    ⟨0xFF888FFF, 0x21000000, fun w => .sub (rdField w) (raField w) (rbField w)⟩,
    ⟨0xFF888FFF, 0x28000000, fun w => .mul (rdField w) (raField w) (rbField w)⟩,
    ⟨0xFF888FFF, 0x30000000, fun w => .div (rdField w) (raField w) (rbField w)⟩,
    ⟨0xFF888FFF, 0x31000000, fun w => .rem (rdField w) (raField w) (rbField w)⟩,
    ⟨0xFF8888FF, 0x32000000, fun w => .divmod (rdField w) (raField w) (rbField w) (rcField w)⟩ ]

/-- The modular, exponentiation and gcd rows of R62. -/
def modularRows : List Row :=
  [ ⟨0xFF88F8FF, 0x38000000, fun w => .modn (rdField w) (raField w) (rcField w)⟩,
    ⟨0xFF8888FF, 0x39000000, fun w => .modmul (rdField w) (raField w) (rbField w) (rcField w)⟩,
    ⟨0xFF8888FF, 0x40000000, fun w => .modexp (rdField w) (raField w) (rbField w) (rcField w)⟩,
    ⟨0xFF888FFF, 0x48000000, fun w => .gcd (rdField w) (raField w) (rbField w)⟩,
    ⟨0xFF88F8FF, 0x49000000, fun w => .modinv (rdField w) (raField w) (rcField w)⟩ ]

/-- The 23 rows of R62. -/
def opcodeRows : List Row := systemRows ++ moveRows ++ arithRows ++ modularRows

/-- `w & row.mask = row.match` (R62). -/
def Row.selects (r : Row) (w : Word) : Bool := w &&& r.mask == r.pattern

/-- The name of the reason for a word no row selects: its opcode byte is no row's (R63), or some
must-be-zero bit of a defined opcode is set (R64). -/
def whyIllegal (w : Word) : Illegal :=
  if opcodeRows.any (fun r => opField r.pattern == opField w) then .reservedBits
  else .reservedOpcode

/-- `decode(w)` of R69: the row that selects `w`, then the check of R66. -/
def decode (w : Word) : Decoded :=
  match opcodeRows.find? (fun r => r.selects w) with
  | some r => if (r.build w).wf then .instr (r.build w) else .illegal .sameDestination
  | none => .illegal (whyIllegal w)

/-! ### The encoder (R56, R57) -/

/-- A register number in its four-bit field, top bit 0 (R56). -/
def regBits (r : RegId) : Nibble := BitVec.ofNat 4 r.val

/-- A word of the register formats: `op`, `rd`, `ra`, `rb`, `rc`, `i8` (R56). -/
def wordOfFields (op : Byte) (rd ra rb rc : Nibble) (i8 : Byte) : Word :=
  op ++ rd ++ ra ++ rb ++ rc ++ i8

/-- A word of the two formats with a 16-bit immediate: `op`, `rd`, `ra`, `i16` (R56). -/
def wordOfImm16 (op : Byte) (rd ra : Nibble) (i16 : Half) : Word := op ++ rd ++ ra ++ i16

/-- The command word of an instruction, by the formats of R57 and the opcodes of R62. -/
def encode : Instr → Word
  | .nop => wordOfFields 0x00 0 0 0 0 0
  | .clre => wordOfFields 0x01 0 0 0 0 0
  | .rdsr idx => wordOfFields 0x02 0 0 0 0 idx
  | .beginNum rd sign => wordOfFields 0x08 (regBits rd) 0 0 0 (BitVec.ofNat 8 sign.toNat)
  | .pushd rd code => wordOfFields 0x09 (regBits rd) 0 0 0 code
  | .endNum rd => wordOfFields 0x0A (regBits rd) 0 0 0 0
  | .seti rd imm => wordOfImm16 0x0B (regBits rd) 0 imm
  | .mov rd ra => wordOfFields 0x0C (regBits rd) (regBits ra) 0 0 0
  | .neg rd ra => wordOfFields 0x0D (regBits rd) (regBits ra) 0 0 0
  | .len ra => wordOfFields 0x0E 0 (regBits ra) 0 0 0
  | .getd ra index => wordOfImm16 0x0F 0 (regBits ra) index
  | .cmp ra rb => wordOfFields 0x10 0 (regBits ra) (regBits rb) 0 0
  | .add rd ra rb => wordOfFields 0x20 (regBits rd) (regBits ra) (regBits rb) 0 0
  | .sub rd ra rb => wordOfFields 0x21 (regBits rd) (regBits ra) (regBits rb) 0 0
  | .mul rd ra rb => wordOfFields 0x28 (regBits rd) (regBits ra) (regBits rb) 0 0
  | .div rd ra rb => wordOfFields 0x30 (regBits rd) (regBits ra) (regBits rb) 0 0
  | .rem rd ra rb => wordOfFields 0x31 (regBits rd) (regBits ra) (regBits rb) 0 0
  | .divmod rd ra rb rc =>
      wordOfFields 0x32 (regBits rd) (regBits ra) (regBits rb) (regBits rc) 0
  | .modn rd ra rc => wordOfFields 0x38 (regBits rd) (regBits ra) 0 (regBits rc) 0
  | .modmul rd ra rb rc =>
      wordOfFields 0x39 (regBits rd) (regBits ra) (regBits rb) (regBits rc) 0
  | .modexp rd ra rb rc =>
      wordOfFields 0x40 (regBits rd) (regBits ra) (regBits rb) (regBits rc) 0
  | .gcd rd ra rb => wordOfFields 0x48 (regBits rd) (regBits ra) (regBits rb) 0 0
  | .modinv rd ra rc => wordOfFields 0x49 (regBits rd) (regBits ra) 0 (regBits rc) 0

/-- The instruction the decoder reads from the bits `w` of a row of spec/opcode_table.json that has
`nbits` bits; every bit above `nbits` is 0. A command is one 32-bit word handed over whole, so there
is no byte order (30_encoding.md R56, 20_memory.md R45). -/
def decodeTableWord (nbits w : Nat) : Option Instr :=
  match decode (BitVec.ofNat 32 (w % 2 ^ nbits)) with
  | .instr i => some i
  | .illegal _ => none

end Sys2Proof
end

