-- ==== Sys2Proof/Machine/State.lean ====
section
/-! DEFINITION. The state of the block as plain data (10_state.md R20 to R30, R35), the two host
channels as queues and the host's coming actions (30_encoding.md R55, 70_reset_and_hazards.md R216),
the status codes (60_exceptions.md R191), and the state after reset. -/

namespace Sys2Proof.Machine

/-- A decimal digit, 0 to 9 (00_scope.md R6). -/
abbrev Digit := Fin 10

/-- A BigInt: a sign, true for negative, and its decimal digits, least significant first
(00_scope.md R12; log entry 10). -/
structure BigInt where
  neg : Bool
  digits : List Digit
  deriving DecidableEq, Repr

/-- `v.len`, the number of digits (R12). -/
def BigInt.len (v : BigInt) : Nat := v.digits.length

/-- The three states of a BigInt register (10_state.md R21). -/
inductive RegState where
  /-- Holds no value (R24). -/
  | invalid
  /-- Under construction: the sign BEGIN gave and the digits pushed so far, in the order they were
  pushed, most significant first (R21, R23). -/
  | opened (sign : Bool) (pushed : List Digit)
  /-- Holds a BigInt (R22). -/
  | valid (v : BigInt)
  deriving DecidableEq, Repr

/-- The two modes (10_state.md R29, 60_exceptions.md R190). -/
inductive Mode where
  | ready
  | halted
  deriving DecidableEq, Repr

/-- The error statuses of 60_exceptions.md R191; the status OK is the absence of one. -/
inductive Status where
  /-- ERR_FORMAT (R192). -/
  | format
  /-- ERR_DIVZERO (R193). -/
  | divzero
  /-- ERR_NOTCOPRIME (R194). -/
  | notCoprime
  /-- ERR_OVERFLOW (R196). -/
  | overflow
  /-- ERR_DOMAIN (R195). -/
  | domain
  /-- ERR_REG (R197). -/
  | reg
  /-- ERR_ILLEGAL (R198). -/
  | illegal
  /-- ERR_HALTED (R201). -/
  | halted
  deriving DecidableEq, Repr

/-- What the host can do (30_encoding.md R55): put a command word on the command channel, take the
oldest response, assert reset; `wait` leaves the turn to the block. -/
inductive HostEvent where
  | issue (w : Word)
  | take
  | reset
  | wait
  deriving DecidableEq, Repr

/-- The reasons a step can stop with a fault: there are none. Every command word has exactly one
outcome in every state and the block has no stuck state (70_reset_and_hazards.md R222,
93_implementation_defined.md section 2); what the spec calls an error is a next state with an error
response (60_exceptions.md R199 to R202). The type is closed and empty, so nothing raises it (safe;
log entry 8). -/
inductive Fault where
  deriving DecidableEq, Repr

/-- The reasons an instruction has no meaning. -/
inductive Refusal where
  /-- The instruction has no meaning in the model yet; raised by an arm of exec only, never by a
  meaning. No arm raises it: all 23 commands are modelled (safe). -/
  | notModelled (mnemonic : String)
  deriving DecidableEq, Repr

/-- The state of the machine. -/
structure State where
  /-- The instance's parameters; no step writes them (10_state.md R36). -/
  cfg : Config
  /-- `B[0]` to `B[7]` (R21). -/
  regs : Vector RegState 8
  /-- `MODE` (R29). -/
  mode : Mode
  /-- `ECODE` (R30). -/
  ecode : Byte
  /-- `ECMD` (R30). -/
  ecmd : Word
  /-- The command channel: words offered and not yet accepted, oldest first (30_encoding.md R55). -/
  cmds : List Word
  /-- The response channel: responses produced and not yet taken, oldest first (R55). -/
  resps : List Word
  /-- The host's coming actions, next first; when none is left only the block moves (R55, R216). -/
  host : List HostEvent
  deriving DecidableEq, Repr

/-- The state after reset of an instance with the parameters `c`: every register Invalid, MODE
Ready, ECODE and ECMD 0, both channels empty (10_state.md R35, 70_reset_and_hazards.md R215). -/
def State.resetOf (c : Config) : State :=
  { cfg := c
    regs := Vector.replicate 8 RegState.invalid
    mode := .ready
    ecode := 0
    ecmd := 0
    cmds := []
    resps := []
    host := [] }

/-- The machine right after reset, with the default `MAXD = 1024` (00_scope.md R9) and nothing asked
of the host. -/
def State.reset : State := State.resetOf Config.standard

end Sys2Proof.Machine
end

