-- ==== Sys2Proof/Machine/Magnitude.lean ====
section
/-! DEFINITION. The primitives on magnitudes and values: `mag`, `val`, `strip`, `canon`, `cmpmag`,
`cmp` and `big` (00_scope.md R12 to R15, 40_construct_format_compare.md R95). A magnitude is a digit
list, least significant first. -/

namespace Sys2Proof.Machine

/-- `mag(v)`: the sum of `d[i] * 10^i` (R12). -/
def mag : List Digit → Nat
  | [] => 0
  | d :: ds => d.val + 10 * mag ds

/-- `val(v)` (R12). -/
def val (v : BigInt) : Int := if v.neg then -(mag v.digits : Int) else (mag v.digits : Int)

/-- The digit list without its most significant zeros, empty when every digit is 0. -/
def dropTopZeros : List Digit → List Digit
  | [] => []
  | d :: ds =>
    match dropTopZeros ds with
    | [] => if d = 0 then [] else [d]
    | e :: es => d :: e :: es

/-- The `while` loop of R14: most significant zeros removed, at least one digit kept. -/
def strip (ds : List Digit) : List Digit :=
  match dropTopZeros ds with
  | [] => [0]
  | e :: es => e :: es

/-- `canon(s, ds)` (R14): strip, and zero is never negative. -/
def canon (s : Bool) (ds : List Digit) : BigInt :=
  { neg := s && !(strip ds == [0]), digits := strip ds }

/-- The comparison of two digits. -/
def cmpDigit (x y : Digit) : Ordering :=
  if x.val < y.val then .lt else if y.val < x.val then .gt else .eq

/-- Most-significant-digit-first comparison of two digit lists of the same length (R15). -/
def cmpDigits : List Digit → List Digit → Ordering
  | x :: xs, y :: ys =>
    match cmpDigits xs ys with
    | .eq => cmpDigit x y
    | .lt => .lt
    | .gt => .gt
  | [], _ => .eq
  | _ :: _, [] => .eq

/-- `cmpmag(x, y)` (R15): digit count first, then the digits. -/
def cmpMag (x y : List Digit) : Ordering :=
  if y.length < x.length then .gt
  else if x.length < y.length then .lt
  else cmpDigits x y

/-- `cmp(a, b)` (R95): sign first, then the magnitudes, inverted when both are negative. -/
def cmpBig (a b : BigInt) : Ordering :=
  if a.neg != b.neg then (if a.neg then .lt else .gt)
  else if a.neg then (cmpMag a.digits b.digits).swap
  else cmpMag a.digits b.digits

/-- The decimal digits of a positive natural, least significant first; none for 0. The first argument
bounds the number of digits. -/
def natDigits : Nat → Nat → List Digit
  | 0, _ => []
  | fuel + 1, n => if n = 0 then [] else Fin.ofNat 10 n :: natDigits fuel (n / 10)

/-- The canonical digit list of a natural number. -/
def digitsOf (n : Nat) : List Digit := if n = 0 then [0] else natDigits n n

/-- `big(z)`: the canonical BigInt of the integer `z` (R14). -/
def big (z : Int) : BigInt := { neg := decide (z < 0), digits := digitsOf z.natAbs }

end Sys2Proof.Machine
end

