-- ==== Sys2Proof/Machine/AddSub.lean ====
section
/-! DEFINITION. The adder/subtractor: the carry chain, the borrow chain and the sign dispatch
(41_addsub.md R110 to R114), and the negation of 40_construct_format_compare.md R90. The commands
ADD and SUB are in Machine/Arithmetic.lean. -/

namespace Sys2Proof.Machine

/-- The radix-10 full adder cell (R112): sum digit and carry out. -/
def addCell (x y : Digit) (cin : Bool) : Digit × Bool :=
  (Fin.ofNat 10 (x.val + y.val + cin.toNat), decide (10 ≤ x.val + y.val + cin.toNat))

/-- The carry chain over the positions where only one operand has digits left, the other padded with
zeros; a final carry is one more digit 1 (R111). -/
def carryUp : List Digit → Bool → List Digit
  | [], c => if c then [1] else []
  | x :: xs, c => (addCell x 0 c).1 :: carryUp xs (addCell x 0 c).2

/-- The carry chain of `addmag` from one position up (R111). -/
def addChain : List Digit → List Digit → Bool → List Digit
  | [], ys, c => carryUp ys c
  | x :: xs, [], c => carryUp (x :: xs) c
  | x :: xs, y :: ys, c => (addCell x y c).1 :: addChain xs ys (addCell x y c).2

/-- `addmag(x, y)` (R111): the carry into position 0 is 0. -/
def addMag (x y : List Digit) : List Digit := addChain x y false

/-- The borrow cell (R113): difference digit and borrow out. -/
def subCell (x y : Digit) (bin : Bool) : Digit × Bool :=
  (Fin.ofNat 10 (x.val + 10 - (y.val + bin.toNat)), decide (x.val < y.val + bin.toNat))

/-- The borrow chain of `submag` over the positions of `x` (R113), `y` padded with zeros. -/
def subChain : List Digit → List Digit → Bool → List Digit
  | [], _, _ => []
  | x :: xs, [], b => (subCell x 0 b).1 :: subChain xs [] (subCell x 0 b).2
  | x :: xs, y :: ys, b => (subCell x y b).1 :: subChain xs ys (subCell x y b).2

/-- `submag(x, y)` (R113), called with `mag(x) >= mag(y)` only (log entry 9). -/
def subMag (x y : List Digit) : List Digit := strip (subChain x y false)

/-- `add(a, b)` (R114). -/
def bigAdd (a b : BigInt) : BigInt :=
  if a.neg = b.neg then canon a.neg (addMag a.digits b.digits)
  else match cmpMag a.digits b.digits with
    | .lt => canon b.neg (subMag b.digits a.digits)
    | .eq | .gt => canon a.neg (subMag a.digits b.digits)

/-- `sub(a, b)` (R114). -/
def bigSub (a b : BigInt) : BigInt :=
  if a.neg ≠ b.neg then canon a.neg (addMag a.digits b.digits)
  else match cmpMag a.digits b.digits with
    | .lt => canon (!a.neg) (subMag b.digits a.digits)
    | .eq | .gt => canon a.neg (subMag a.digits b.digits)

/-- Unary minus (R90): flip the sign and canonicalise. -/
def bigNeg (a : BigInt) : BigInt := canon (!a.neg) a.digits

end Sys2Proof.Machine
end

