-- ==== Sys2Proof/Machine/Divider.lean ====
section
/-! DEFINITION. The restoring divider (43_divrem.md R140 to R142): the magnitude stage `divmag` and
the signs of quotient and remainder. -/

namespace Sys2Proof.Machine

/-- The inner loop of `divmag` (R141): subtract `y` from the running remainder while it is not
smaller, counting the subtractions. The first argument bounds the number of subtractions. -/
def subtractWhile : Nat → List Digit → List Digit → Nat × List Digit
  | 0, r, _ => (0, r)
  | fuel + 1, r, y =>
    match cmpMag r y with
    | .lt => (0, r)
    | .eq | .gt =>
      let rest := subtractWhile fuel (subMag r y) y
      (rest.1 + 1, rest.2)

/-- `divmag(x, y)` (R141): quotient positions, not stripped, and the running remainder. The digits of
the tail are the more significant ones and are processed first; the inner loop runs at most 9 times
(R141). -/
def divLoop : List Digit → List Digit → List Digit × List Digit
  | [], _ => ([], [0])
  | d :: ds, y =>
    let upper := divLoop ds y
    let here := subtractWhile 9 (strip (d :: upper.2)) y
    (Fin.ofNat 10 here.1 :: upper.1, here.2)

/-- `divmag(x, y)` (R141): quotient and remainder magnitudes, called with `mag(y) != 0` only (log
entry 9). -/
def divMag (x y : List Digit) : List Digit × List Digit :=
  let qr := divLoop x y
  (strip qr.1, qr.2)

/-- The quotient (R142, R143): sign by exclusive or, canonicalised. -/
def bigDiv (a b : BigInt) : BigInt := canon (a.neg != b.neg) (divMag a.digits b.digits).1

/-- The signed remainder (R142, R144): negative when the signs differ, canonicalised. -/
def bigRem (a b : BigInt) : BigInt := canon (a.neg != b.neg) (divMag a.digits b.digits).2

end Sys2Proof.Machine
end

