-- ==== Sys2Proof/Machine/Multiplier.lean ====
section
/-! DEFINITION. The schoolbook multiplier (42_mul.md R130 to R132): the digit-product array over a
buffer of `len(a) + len(b)` digits, and the sign stage. -/

namespace Sys2Proof.Machine

/-- One step of a row (R131): buffer digit, product of two digits and carry in give the new buffer
digit and the carry out, 0 to 9. -/
def mulCell (b x y carry : Digit) : Digit × Digit :=
  (Fin.ofNat 10 (b.val + x.val * y.val + carry.val),
   Fin.ofNat 10 ((b.val + x.val * y.val + carry.val) / 10))

/-- One row of the array (R131), for the multiplier digit `x`: `buf` is the buffer from the row's
first position up; after the last digit of `y` the row's carry is stored. -/
def mulRow (x : Digit) : List Digit → List Digit → Digit → List Digit
  | [], [], _ => []
  | [], _ :: buf, carry => carry :: buf
  | _ :: _, [], _ => []
  | y :: ys, b :: buf, carry =>
    (mulCell b x y carry).1 :: mulRow x ys buf (mulCell b x y carry).2

/-- The rows of the array, one per digit of the first factor, ascending (R131); the digit at a
row's first position is final once the row is done. -/
def mulRows : List Digit → List Digit → List Digit → List Digit
  | [], _, buf => buf
  | x :: xs, ys, buf =>
    match mulRow x ys buf 0 with
    | [] => []
    | b :: rest => b :: mulRows xs ys rest

/-- `mulmag(x, y)` (R131): a buffer of exactly `x.len + y.len` digits, not stripped. -/
def mulMag (x y : List Digit) : List Digit :=
  mulRows x y (List.replicate (x.length + y.length) 0)

/-- The product (R130, R132): sign by exclusive or, canonicalised. -/
def bigMul (a b : BigInt) : BigInt := canon (a.neg ^^ b.neg) (mulMag a.digits b.digits)

end Sys2Proof.Machine
end

