-- ==== Sys2Proof/Machine/NumberTheory.lean ====
section
/-! DEFINITION. The functions of the modular units: `emod` (44_modular.md R155), the square-and-
multiply loop (45_modexp.md R165), Euclid's algorithm on magnitudes (46_gcd_modinv.md R175) and the
extended Euclid (R177). The three loops of the spec end by themselves (70_reset_and_hazards.md R222);
each is written by structural recursion on a bound of its number of iterations (log entry 5). -/

namespace Sys2Proof.Machine

/-- `emod(a, m)` (R155), called with `val(m) > 0` only (log entry 9). -/
def emod (a m : BigInt) : BigInt :=
  let r := (divMag a.digits m.digits).2
  if a.neg = true ∧ mag r ≠ 0 then canon false (subMag m.digits r) else canon false r

/-- The BigInts 0, 1 and 2 of the loops of R165 and R177. -/
def bigZero : BigInt := ⟨false, [0]⟩
def bigOne : BigInt := ⟨false, [1]⟩
def bigTwo : BigInt := ⟨false, [2]⟩

/-- "if x.d[0] is odd" (R165, 30_encoding.md R60). -/
def isOdd (v : BigInt) : Bool :=
  match v.digits with
  | [] => false
  | d :: _ => d.val % 2 == 1

/-- The loop of `modexp` (R165) on the accumulator, the base and the working exponent. -/
def modexpLoop : Nat → BigInt → BigInt → BigInt → BigInt → BigInt
  | 0, acc, _, _, _ => acc
  | fuel + 1, acc, b, x, m =>
    match cmpBig x bigZero with
    | .gt =>
      modexpLoop fuel (if isOdd x then emod (bigMul acc b) m else acc)
        (emod (bigMul b b) m) (bigDiv x bigTwo) m
    | .lt | .eq => acc

/-- `modexp(base, e, m)` (R165). An exponent of `n` digits is below `2^(4n)`, so the loop runs at most
`4n` times. -/
def modexp (base e m : BigInt) : BigInt :=
  modexpLoop (4 * e.len) (emod bigOne m) (emod base m) e m

/-- The loop of `gcdmag` (R175): `(x, y) <- (y, x mod y)` while `mag(y) != 0`. -/
def gcdLoop : Nat → List Digit → List Digit → List Digit
  | 0, x, _ => x
  | fuel + 1, x, y => if mag y = 0 then x else gcdLoop fuel y (divMag x y).2

/-- `gcdmag(a, b)` (R175). Two iterations at least halve `y`, which is below `2^(4n)` when it has `n`
digits, so the loop runs at most `8n` times. -/
def gcdMag (x y : List Digit) : List Digit := gcdLoop (8 * y.length) x y

/-- The greatest common divisor as `GCD` writes it (R176). -/
def bigGcd (a b : BigInt) : BigInt := canon false (gcdMag a.digits b.digits)

/-- The loop of `modinv` (R177); it answers the last non-zero remainder and its coefficient. -/
def modinvLoop : Nat → BigInt → BigInt → BigInt → BigInt → BigInt × BigInt
  | 0, d1, _, x1, _ => (d1, x1)
  | fuel + 1, d1, d2, x1, x2 =>
    if mag d2.digits = 0 then (d1, x1)
    else
      let k := bigDiv d1 d2
      modinvLoop fuel d2 (bigSub d1 (bigMul k d2)) x2 (bigSub x1 (bigMul k x2))

/-- The state of the loop of `modinv` when it ends, from `d1 = m`, `d2 = e emod m`, `x1 = 0`,
`x2 = 1` (R177); the number of iterations is bounded as for R175. -/
def modinvEnd (e m : BigInt) : BigInt × BigInt :=
  modinvLoop (8 * (emod e m).len) m (emod e m) bigZero bigOne

/-- `modinv(e, m)` (R177); none is ERR_NOTCOPRIME. -/
def modinv (e m : BigInt) : Option BigInt :=
  let last := modinvEnd e m
  if last.1 = bigOne then some (emod last.2 m) else none

end Sys2Proof.Machine
end

