-- ==== Sys2Proof/Machine/Flags.lean ====
section
/-! DEFINITION. The response flags and the response word (30_encoding.md R59 to R61,
60_exceptions.md R191, R202). -/

namespace Sys2Proof.Machine

/-- The three flags a response carries (R59, R60); they are not stored in the block
(10_state.md R28). -/
structure Flags where
  z : Bool
  n : Bool
  o : Bool
  deriving DecidableEq, Repr

/-- The flags of a command that describes no value (R60, R61). -/
def noFlags : Flags := { z := false, n := false, o := false }

/-- `flagsof(v)` (00_scope.md section 5.3, R60): zero, negative, odd. -/
def flagsOf (v : BigInt) : Flags :=
  { z := decide (mag v.digits = 0), n := v.neg, o := isOdd v }

/-- The data field that carries the length of a value (R61). -/
def lenData (v : BigInt) : Half := BitVec.ofNat 16 v.len

/-- The status byte of an error (R191). -/
def Status.code : Status → Byte
  | .format => 0x01
  | .divzero => 0x02
  | .notCoprime => 0x03
  | .overflow => 0x04
  | .domain => 0x05
  | .reg => 0x06
  | .illegal => 0x07
  | .halted => 0x08

/-- The response word of a command that completed with status OK (R59): status 0 in `[31:24]`, five
reserved bits, then O, N, Z and the data. -/
def okResponse (f : Flags) (data : Half) : Word :=
  (0x00 : Byte) ++ (0 : BitVec 5) ++ BitVec.ofBool f.o ++ BitVec.ofBool f.n ++ BitVec.ofBool f.z
    ++ data

/-- The response word of a command that raised a status: `status << 24` (R59, R202). -/
def errResponse (st : Status) : Word := st.code ++ (0 : BitVec 24)

/-- The data field of CMP: -1, 0 or +1 in two's complement (R61, R96). -/
def cmpData : Ordering → Half
  | .lt => 0xFFFF
  | .eq => 0x0000
  | .gt => 0x0001

end Sys2Proof.Machine
end

