-- ==== Sys2Proof/Machine/Ops.lean ====
section
/-! DEFINITION. The named operations on the state: reading and writing a BigInt register, producing a
response, raising a status (the block's exception: 60_exceptions.md R199 to R202), leaving the halt
(R204), and how a command ends. -/

namespace Sys2Proof.Machine

/-- `B[r]` (00_scope.md section 5.3). -/
def State.reg (s : State) (r : RegId) : RegState := s.regs[r.val]

/-- `B[r] <- v`; no register is hard-wired (10_state.md R21). -/
def State.setReg (s : State) (r : RegId) (v : RegState) : State :=
  { s with regs := s.regs.set r.val v }

/-- Put a response word on the response channel, behind those not yet taken (R55,
20_memory.md R50). -/
def respond (w : Word) (s : State) : State := { s with resps := s.resps ++ [w] }

/-- Halt entry (R200): from Ready, every status but ERR_HALTED latches its code and the command word
and makes the block Halted; otherwise nothing changes (R201, R205). -/
def haltEntry (st : Status) (w : Word) (s : State) : State :=
  if s.mode = .ready ∧ st ≠ .halted then { s with mode := .halted, ecode := st.code, ecmd := w }
  else s

/-- `raise st` by the command word `w` (R199 to R202): no BigInt register changes, the halt entry, and
the response `status << 24`, all together. -/
def raiseStatus (st : Status) (w : Word) (s : State) : State :=
  respond (errResponse st) (haltEntry st w s)

/-- The return from the halt (R204, 40_construct_format_compare.md R81): Ready, and the error record
cleared; no register is touched. -/
def clearError (s : State) : State := { s with mode := .ready, ecode := 0, ecmd := 0 }

/-- How a command ends: with status OK, its effect on the state and what it answers, or with a status
and no effect of its own (R16, R199). -/
inductive Completion where
  | ok (s : State) (flags : Flags) (data : Half)
  | err (st : Status)
  deriving DecidableEq, Repr

/-- The end of the command `w` in the state `s`: the effect and the OK response, or the raised status
on the state as it was (00_scope.md R16). A meaning passes the encoding of its command for `w`: that is
the accepted word (log entry 6). Both are next states: no command is left without an outcome
(70_reset_and_hazards.md R222). -/
def complete (w : Word) (s : State) : Completion → Host.Outcome State Fault Refusal
  | .ok s' f d => .next (respond (okResponse f d) s')
  | .err st => .next (raiseStatus st w s)

/-- Step 1 of R83 and row 1 of R203, for every command but CLRE and RDSR. -/
def whenReady (s : State) (c : Completion) : Completion :=
  match s.mode with
  | .ready => c
  | .halted => .err .halted

/-- The end of a word that `decode` rejects (R63, R83, R203): ERR_HALTED in Halted mode unless its
opcode byte is that of CLRE or RDSR (R201, R205), else ERR_ILLEGAL (R198). -/
def rejectWord (w : Word) (s : State) : State :=
  if s.mode = .halted ∧ opField w ≠ 0x01 ∧ opField w ≠ 0x02 then raiseStatus .halted w s
  else raiseStatus .illegal w s

end Sys2Proof.Machine
end

