-- ==== Sys2Proof/Machine/Channel.lean ====
section
/-! DEFINITION. The host's actions and whose turn a step is (30_encoding.md R55, 20_memory.md R50,
70_reset_and_hazards.md R215, R216; log entries 2 and 3). -/

namespace Sys2Proof.Machine

/-- What a step does. -/
inductive Turn where
  /-- The host acts. -/
  | host (e : HostEvent) (s : State)
  /-- The block accepts the command word `w` and runs it to completion. -/
  | command (w : Word) (s : State)
  /-- The block waits for a command; waiting changes no state (60_exceptions.md R210). -/
  | idle (s : State)
  deriving DecidableEq, Repr

/-- The block's own turn: accept the oldest offered command word, or wait (R55, R50). -/
def blockTurn (s : State) : Turn :=
  match s.cmds with
  | [] => .idle s
  | w :: ws => .command w { s with cmds := ws }

/-- Whose turn it is: the host's next action if there is one, the block's on `wait` or when the host
has none left. -/
def nextTurn (s : State) : Turn :=
  match s.host with
  | [] => blockTurn s
  | .wait :: es => blockTurn { s with host := es }
  | .issue w :: es => .host (.issue w) { s with host := es }
  | .take :: es => .host .take { s with host := es }
  | .reset :: es => .host .reset { s with host := es }

/-- The host's action (R55). Reset is total: everything but the parameters and the host's own coming
actions becomes as after reset, so offered words and untaken responses are dropped (R215). Taking a
response when none is offered takes nothing. -/
def hostAct (e : HostEvent) (s : State) : State :=
  match e with
  | .issue w => { s with cmds := s.cmds ++ [w] }
  | .take => { s with resps := s.resps.tail }
  | .reset => { State.resetOf s.cfg with host := s.host }
  | .wait => s

/-- The state in which the very next step is the block's and accepts `w`; after that step the queue
and the host's actions are those of `s`. -/
def offerNext (w : Word) (s : State) : State :=
  { s with cmds := w :: s.cmds, host := .wait :: s.host }

end Sys2Proof.Machine
end

