-- ==== Sys2Proof/Machine/Operands.lean ====
section
/-! DEFINITION. The operand forms: a checked source, the target of PUSHD and END, the checked and the
unchecked destination (00_scope.md section 5.3), the modulus check (44_modular.md R159), the immediates
(30_encoding.md R58), and the status registers RDSR reads (10_state.md R31). -/

namespace Sys2Proof.Machine

/-- `src(r)`: the BigInt in a Valid register, else ERR_REG (60_exceptions.md R197). -/
def withSrc (s : State) (r : RegId) (k : BigInt → Completion) : Completion :=
  match s.reg r with
  | .valid v => k v
  | .invalid => .err .reg
  | .opened _ _ => .err .reg

/-- The target of PUSHD and END: it must be Open, else ERR_REG (R197). -/
def withOpen (s : State) (r : RegId) (k : Bool → List Digit → Completion) : Completion :=
  match s.reg r with
  | .opened sign pushed => k sign pushed
  | .invalid => .err .reg
  | .valid _ => .err .reg

/-- `B[d] <- v; respond_val(v)`: flags and length of the value written (R61). -/
def writeResult (s : State) (rd : RegId) (v : BigInt) : Completion :=
  .ok (s.setReg rd (.valid v)) (flagsOf v) (lenData v)

/-- `dst(d, v); respond_val(v)`: ERR_OVERFLOW when the canonical value has more than MAXD digits
(R196). -/
def writeChecked (s : State) (rd : RegId) (v : BigInt) : Completion :=
  if s.cfg.maxd < v.len then .err .overflow else writeResult s rd v

/-- `checkmod(m)` (44_modular.md R159). -/
def withModulus (m : BigInt) (k : Completion) : Completion :=
  if mag m.digits = 0 then .err .divzero
  else if m.neg then .err .domain
  else k

/-- The divisor check of DIV, REM and DIVMOD (43_divrem.md R143 to R145, R193). -/
def withDivisor (b : BigInt) (k : Completion) : Completion :=
  if mag b.digits = 0 then .err .divzero else k

/-- The SETI immediate: `sext_16(w[15:0])` (R58, R88). -/
def setiValue (imm : Half) : BigInt := big imm.toInt

/-- The digit a PUSHD code stands for; none for the codes 10 to 255 (R58, R85). -/
def digitOfCode (c : Byte) : Option Digit :=
  if h : c.toNat < 10 then some ⟨c.toNat, h⟩ else none

/-- The GETD index: `zext_16(w[15:0])` (R58, R93). -/
def digitIndex (k : Half) : Nat := k.toNat

/-- Whether a register is Valid. -/
def RegState.isValid : RegState → Bool
  | .valid _ => true
  | .invalid | .opened _ _ => false

/-- Whether a register is Open. -/
def RegState.isOpen : RegState → Bool
  | .opened _ _ => true
  | .invalid | .valid _ => false

/-- The number whose bit `i` is the `i`-th of the list. -/
def bitsToNat : List Bool → Nat
  | [] => 0
  | b :: bs => b.toNat + 2 * bitsToNat bs

/-- REGV and REGO: bit `i` tells a property of `B[i]`, bits 15 to 8 are 0 (10_state.md R31). -/
def regMap (p : RegState → Bool) (s : State) : Half :=
  BitVec.ofNat 16 (bitsToNat (s.regs.toList.map p))

/-- MODE as a status register: bit 0 is 1 if Halted (R31). -/
def modeValue : Mode → Half
  | .ready => 0
  | .halted => 1

/-- The status register `idx`; none for the reserved indices 0x0A to 0xFF (R31). -/
def statusRegister (s : State) (idx : Byte) : Option Half :=
  match idx.toNat with
  | 0 => some Config.idValue
  | 1 => some Config.versionValue
  | 2 => some (BitVec.ofNat 16 Config.nreg)
  | 3 => some (BitVec.ofNat 16 s.cfg.maxd)
  | 4 => some (modeValue s.mode)
  | 5 => some (s.ecode.setWidth 16)
  | 6 => some (s.ecmd.extractLsb' 0 16)
  | 7 => some (s.ecmd.extractLsb' 16 16)
  | 8 => some (regMap RegState.isValid s)
  | 9 => some (regMap RegState.isOpen s)
  | _ => none

end Sys2Proof.Machine
end

