-- ==== Sys2Proof/Machine/Arithmetic.lean ====
section
/-! DEFINITION. The commands of the adder/subtractor, the multiplier and the divider: ADD and SUB
(41_addsub.md R115, R116), MUL (42_mul.md R132), DIV, REM and DIVMOD (43_divrem.md R143 to R145). -/

namespace Sys2Proof.Machine

/-- ADD (R115). -/
def execAdd (rd ra rb : RegId) (s : State) : Host.Outcome State Fault Refusal :=
  complete (encode (.add rd ra rb)) s
    (whenReady s (withSrc s ra fun a => withSrc s rb fun b => writeChecked s rd (bigAdd a b)))

/-- SUB (R116). -/
def execSub (rd ra rb : RegId) (s : State) : Host.Outcome State Fault Refusal :=
  complete (encode (.sub rd ra rb)) s
    (whenReady s (withSrc s ra fun a => withSrc s rb fun b => writeChecked s rd (bigSub a b)))

/-- MUL (R132): the overflow test is on the canonical product. -/
def execMul (rd ra rb : RegId) (s : State) : Host.Outcome State Fault Refusal :=
  complete (encode (.mul rd ra rb)) s
    (whenReady s (withSrc s ra fun a => withSrc s rb fun b => writeChecked s rd (bigMul a b)))

/-- DIV (R143). -/
def execDiv (rd ra rb : RegId) (s : State) : Host.Outcome State Fault Refusal :=
  complete (encode (.div rd ra rb)) s
    (whenReady s (withSrc s ra fun a => withSrc s rb fun b =>
      withDivisor b (writeResult s rd (bigDiv a b))))

/-- REM (R144). -/
def execRem (rd ra rb : RegId) (s : State) : Host.Outcome State Fault Refusal :=
  complete (encode (.rem rd ra rb)) s
    (whenReady s (withSrc s ra fun a => withSrc s rb fun b =>
      withDivisor b (writeResult s rd (bigRem a b))))

/-- The write of DIVMOD: quotient to `rd` and remainder to `rc`, together; the response describes the
quotient (R145, 30_encoding.md R61). -/
def writeBoth (s : State) (rd rc : RegId) (q r : BigInt) : Completion :=
  .ok ((s.setReg rd (.valid q)).setReg rc (.valid r)) (flagsOf q) (lenData q)

/-- DIVMOD (R145): ERR_ILLEGAL when `rd = rc`, before any register is read (30_encoding.md
R66; log entry 7). -/
def execDivmod (rd ra rb rc : RegId) (s : State) : Host.Outcome State Fault Refusal :=
  complete (encode (.divmod rd ra rb rc)) s
    (whenReady s
      (if rd = rc then .err .illegal
        else withSrc s ra fun a => withSrc s rb fun b =>
          withDivisor b (writeBoth s rd rc (bigDiv a b) (bigRem a b))))

end Sys2Proof.Machine
end

