-- ==== Sys2Proof/Machine/Construct.lean ====
section
/-! DEFINITION. Construction: BEGIN, PUSHD, END and SETI (40_construct_format_compare.md R84 to R88). -/

namespace Sys2Proof.Machine

/-- BEGIN (R84): any prior content is discarded. -/
def execBegin (rd : RegId) (sign : Bool) (s : State) : Host.Outcome State Fault Refusal :=
  complete (encode (.beginNum rd sign)) s
    (whenReady s (.ok (s.setReg rd (.opened sign [])) noFlags 0))

/-- PUSHD (R85): ERR_REG, then ERR_FORMAT, then ERR_OVERFLOW; the digit goes to the least significant
end of the pushed list. -/
def execPushd (rd : RegId) (code : Byte) (s : State) : Host.Outcome State Fault Refusal :=
  complete (encode (.pushd rd code)) s
    (whenReady s (withOpen s rd fun sign ds =>
      match digitOfCode code with
      | none => .err .format
      | some d =>
        if ds.length = s.cfg.maxd then .err .overflow
        else .ok (s.setReg rd (.opened sign (ds ++ [d]))) noFlags
          (BitVec.ofNat 16 (ds.length + 1))))

/-- END (R86): ERR_REG, then ERR_FORMAT; the pushed list is reversed into storage order and
canonicalised. -/
def execEnd (rd : RegId) (s : State) : Host.Outcome State Fault Refusal :=
  complete (encode (.endNum rd)) s
    (whenReady s (withOpen s rd fun sign ds =>
      match ds with
      | [] => .err .format
      | _ :: _ => writeResult s rd (canon sign ds.reverse)))

/-- SETI (R88). -/
def execSeti (rd : RegId) (imm : Half) (s : State) : Host.Outcome State Fault Refusal :=
  complete (encode (.seti rd imm)) s (whenReady s (writeChecked s rd (setiValue imm)))

end Sys2Proof.Machine
end

