-- ==== Sys2Proof/Machine/Modular.lean ====
section
/-! DEFINITION. The commands of the modular units: MODN and MODMUL (44_modular.md R156, R157), MODEXP
(45_modexp.md R166), GCD and MODINV (46_gcd_modinv.md R176, R178). -/

namespace Sys2Proof.Machine

/-- MODN (R156). -/
def execModn (rd ra rc : RegId) (s : State) : Host.Outcome State Fault Refusal :=
  complete (encode (.modn rd ra rc)) s
    (whenReady s (withSrc s ra fun a => withSrc s rc fun m =>
      withModulus m (writeResult s rd (emod a m))))

/-- MODMUL (R157): the full product is a hidden temporary and never overflows (10_state.md R34). -/
def execModmul (rd ra rb rc : RegId) (s : State) : Host.Outcome State Fault Refusal :=
  complete (encode (.modmul rd ra rb rc)) s
    (whenReady s (withSrc s ra fun a => withSrc s rb fun b => withSrc s rc fun m =>
      withModulus m (writeResult s rd (emod (bigMul a b) m))))

/-- MODEXP (R166): the modulus check comes before anything is computed. -/
def execModexp (rd ra rb rc : RegId) (s : State) : Host.Outcome State Fault Refusal :=
  complete (encode (.modexp rd ra rb rc)) s
    (whenReady s (withSrc s ra fun base => withSrc s rb fun e => withSrc s rc fun m =>
      withModulus m (writeResult s rd (modexp base e m))))

/-- GCD (R176). -/
def execGcd (rd ra rb : RegId) (s : State) : Host.Outcome State Fault Refusal :=
  complete (encode (.gcd rd ra rb)) s
    (whenReady s (withSrc s ra fun a => withSrc s rb fun b => writeResult s rd (bigGcd a b)))

/-- MODINV (R178): ERR_REG, then ERR_DIVZERO or ERR_DOMAIN, then ERR_NOTCOPRIME. -/
def execModinv (rd ra rc : RegId) (s : State) : Host.Outcome State Fault Refusal :=
  complete (encode (.modinv rd ra rc)) s
    (whenReady s (withSrc s ra fun e => withSrc s rc fun m =>
      withModulus m
        (match modinv e m with
          | some v => writeResult s rd v
          | none => .err .notCoprime)))

end Sys2Proof.Machine
end

