-- ==== Sys2Proof/Machine/MoveCompare.lean ====
section
/-! DEFINITION. Move, negate, read-back and comparison: MOV, NEG, LEN, GETD and CMP
(40_construct_format_compare.md R89, R90, R92, R93, R96). -/

namespace Sys2Proof.Machine

/-- MOV (R89). -/
def execMov (rd ra : RegId) (s : State) : Host.Outcome State Fault Refusal :=
  complete (encode (.mov rd ra)) s (whenReady s (withSrc s ra fun a => writeResult s rd a))

/-- NEG (R90). -/
def execNeg (rd ra : RegId) (s : State) : Host.Outcome State Fault Refusal :=
  complete (encode (.neg rd ra)) s
    (whenReady s (withSrc s ra fun a => writeResult s rd (bigNeg a)))

/-- LEN (R92): flags and length of the source; writes nothing. -/
def execLen (ra : RegId) (s : State) : Host.Outcome State Fault Refusal :=
  complete (encode (.len ra)) s
    (whenReady s (withSrc s ra fun a => .ok s (flagsOf a) (lenData a)))

/-- GETD (R93): index 0 is the least significant digit; an index at or past `len` raises
ERR_DOMAIN. -/
def execGetd (ra : RegId) (index : Half) (s : State) : Host.Outcome State Fault Refusal :=
  complete (encode (.getd ra index)) s
    (whenReady s (withSrc s ra fun a =>
      match a.digits[digitIndex index]? with
      | none => .err .domain
      | some d => .ok s noFlags (BitVec.ofNat 16 d.val)))

/-- CMP (R96). -/
def execCmp (ra rb : RegId) (s : State) : Host.Outcome State Fault Refusal :=
  complete (encode (.cmp ra rb)) s
    (whenReady s (withSrc s ra fun a => withSrc s rb fun b =>
      .ok s noFlags (cmpData (cmpBig a b))))

end Sys2Proof.Machine
end

