-- ==== Sys2Proof/Machine/System.lean ====
section
/-! DEFINITION. The system commands NOP, CLRE and RDSR (40_construct_format_compare.md R80 to R82). -/

namespace Sys2Proof.Machine

/-- NOP (R80): nothing but the response 0. -/
def execNop (s : State) : Host.Outcome State Fault Refusal :=
  complete (encode .nop) s (whenReady s (.ok s noFlags 0))

/-- CLRE (R81): runs in both modes. -/
def execClre (s : State) : Host.Outcome State Fault Refusal :=
  complete (encode .clre) s (.ok (clearError s) noFlags 0)

/-- RDSR (R82): runs in both modes; ERR_ILLEGAL for a reserved index. -/
def execRdsr (idx : Byte) (s : State) : Host.Outcome State Fault Refusal :=
  complete (encode (.rdsr idx)) s
    (match statusRegister s idx with
      | some v => .ok s noFlags v
      | none => .err .illegal)

end Sys2Proof.Machine
end

