-- ==== Sys2Proof/Machine/Dispatch.lean ====
section
/-! DEFINITION. The one dispatch from a command to its meaning. -/

namespace Sys2Proof.Machine

/-- What an accepted and decoded command does (40_construct_format_compare.md R83). -/
def exec (i : Instr) (s : State) : Host.Outcome State Fault Refusal :=
  match i with
  | .nop => Sys2Proof.Machine.execNop s
  | .clre => Sys2Proof.Machine.execClre s
  | .rdsr idx => Sys2Proof.Machine.execRdsr idx s
  | .beginNum rd sign => Sys2Proof.Machine.execBegin rd sign s
  | .pushd rd code => Sys2Proof.Machine.execPushd rd code s
  | .endNum rd => Sys2Proof.Machine.execEnd rd s
  | .seti rd imm => Sys2Proof.Machine.execSeti rd imm s
  | .mov rd ra => Sys2Proof.Machine.execMov rd ra s
  | .neg rd ra => Sys2Proof.Machine.execNeg rd ra s
  | .len ra => Sys2Proof.Machine.execLen ra s
  | .getd ra index => Sys2Proof.Machine.execGetd ra index s
  | .cmp ra rb => Sys2Proof.Machine.execCmp ra rb s
  | .add rd ra rb => Sys2Proof.Machine.execAdd rd ra rb s
  | .sub rd ra rb => Sys2Proof.Machine.execSub rd ra rb s
  | .mul rd ra rb => Sys2Proof.Machine.execMul rd ra rb s
  | .div rd ra rb => Sys2Proof.Machine.execDiv rd ra rb s
  | .rem rd ra rb => Sys2Proof.Machine.execRem rd ra rb s
  | .divmod rd ra rb rc => Sys2Proof.Machine.execDivmod rd ra rb rc s
  | .modn rd ra rc => Sys2Proof.Machine.execModn rd ra rc s
  | .modmul rd ra rb rc => Sys2Proof.Machine.execModmul rd ra rb rc s
  | .modexp rd ra rb rc => Sys2Proof.Machine.execModexp rd ra rb rc s
  | .gcd rd ra rb => Sys2Proof.Machine.execGcd rd ra rb s
  | .modinv rd ra rc => Sys2Proof.Machine.execModinv rd ra rc s

end Sys2Proof.Machine
end

