-- ==== Sys2Proof/Machine/Step.lean ====
section
/-! DEFINITION. One step of the machine: the host's next action, or the block accepts the oldest
offered command word, decodes it and runs it to completion (20_memory.md R50,
40_construct_format_compare.md R83, 60_exceptions.md R203). -/

namespace Sys2Proof.Machine

/-- The one step function. -/
def step (s : State) : Host.Outcome State Fault Refusal :=
  match nextTurn s with
  | .host e s' => .next (hostAct e s')
  | .idle s' => .next s'
  | .command w s' =>
    match decode w with
    | .instr i => exec i s'
    | .illegal _ => .next (rejectWord w s')

/-- `s` with the table word `w` of `nbits` bits offered on the command channel in front of everything
else, so that the very next step accepts and runs it (log entry 4). -/
def State.withFetchWord (s : State) (nbits w : Nat) : State :=
  offerNext (BitVec.ofNat 32 (w % 2 ^ nbits)) s

end Sys2Proof.Machine
end

