-- ==== Sys2Proof/Machine/Pseudo.lean ====
section
/-! DEFINITION. The pseudo-instructions PARSE, FORMAT, MODSQR and LDZ as the command sequences they
expand to (30_encoding.md R71), and the end of a run of command words (70_reset_and_hazards.md R223). -/

namespace Sys2Proof.Machine

/-- The digit code the host sends for a character: 0 to 9 for the digit characters, 255 for any other
(R71; log entry 11). -/
def charCode (c : Char) : Byte :=
  if 48 ≤ c.toNat ∧ c.toNat ≤ 57 then BitVec.ofNat 8 (c.toNat - 48) else 255

/-- Whether a text starts with the character `-` (R71). -/
def hasMinus : List Char → Bool
  | [] => false
  | c :: _ => c == '-'

/-- The characters after the optional leading `-` (R71). -/
def afterMinus (text : List Char) : List Char := if hasMinus text then text.tail else text

/-- `PARSE Bd, "text"` (R71). -/
def parseSeq (rd : RegId) (text : List Char) : List Instr :=
  .beginNum rd (hasMinus text)
    :: ((afterMinus text).map (fun c => Instr.pushd rd (charCode c)) ++ [Instr.endNum rd])

/-- The GETD commands of FORMAT, for the indices below `n`, highest first (R71). -/
def getdsDown (ra : RegId) : Nat → List Instr
  | 0 => []
  | n + 1 => .getd ra (BitVec.ofNat 16 n) :: getdsDown ra n

/-- `FORMAT Ba`, for the length the host read in the response of LEN (R71). -/
def formatSeq (ra : RegId) (len : Nat) : List Instr := .len ra :: getdsDown ra len

/-- `MODSQR Bd, Ba, Bm` (R71). -/
def modsqrSeq (rd ra rc : RegId) : List Instr := [.modmul rd ra ra rc]

/-- `LDZ Bd` (R71). -/
def ldzSeq (rd : RegId) : List Instr := [.seti rd 0]

/-- A run (R223): the words are offered one after the other and each is run to completion, with no
action of the host in between. -/
def runWords : List Word → State → Host.Outcome State Fault Refusal
  | [], s => .next s
  | w :: ws, s =>
    match step (offerNext w s) with
    | .next t => runWords ws t
    | .fault r => .fault r
    | .refused r => .refused r

/-- `n` steps one after the other, whoever's turn each of them is: with no action of the host to come,
`n` command words are taken from the queue, oldest first (20_memory.md R50). -/
def runSteps : Nat → State → Host.Outcome State Fault Refusal
  | 0, s => .next s
  | n + 1, s =>
    match step s with
    | .next t => runSteps n t
    | .fault r => .fault r
    | .refused r => .refused r

/-- The run of a sequence of instructions. -/
def runInstrs (is : List Instr) (s : State) : Host.Outcome State Fault Refusal :=
  runWords (is.map encode) s

end Sys2Proof.Machine
end

