-- ==== Sys2Proof/Safety.lean ====
section
/-! DEFINITION. What the claims speak of: canonical BigInts (00_scope.md R13), the invariant of the
machine (10_state.md R22, R26, R30, 30_encoding.md R59), which registers a command reads and writes
(10_state.md R25), and a clean run (70_reset_and_hazards.md R223). -/

namespace Sys2Proof.Machine

/-- A canonical BigInt (R13): (a) at least one digit; (b) no most significant zero, except the single
digit of zero; (c) a zero magnitude is non-negative and has one digit. -/
def BigInt.canonical (v : BigInt) : Bool :=
  decide (1 ≤ v.digits.length)
    && (decide (v.digits.getLast? ≠ some 0) || decide (v.digits = [0]))
    && (decide (mag v.digits ≠ 0) || (decide (v.neg = false) && decide (v.digits.length = 1)))

/-- What a register may hold (10_state.md R21, R22, R26). -/
def regOk (c : Config) : RegState → Bool
  | .invalid => true
  | .opened _ pushed => decide (pushed.length ≤ c.maxd)
  | .valid v => v.canonical && decide (v.len ≤ c.maxd)

/-- The invariant of the error record (10_state.md R30): in Ready both parts are 0; in Halted ECODE is
a status code other than OK and ERR_HALTED. -/
def errorRecordOk (s : State) : Bool :=
  match s.mode with
  | .ready => decide (s.ecode = 0) && decide (s.ecmd = 0)
  | .halted => decide (1 ≤ s.ecode.toNat) && decide (s.ecode.toNat ≤ 7)

/-- The status byte of a response word (30_encoding.md R59). -/
def respStatus (w : Word) : Byte := w.extractLsb' 24 8

/-- How MODE and the error record follow from the response `r` of the command word `w` (60_exceptions.md
R200, R201): with status OK they stay; with an error status a Ready block latches the status and the
word and is Halted, and a Halted block keeps its record. -/
def recordFollows (w r : Word) (s t : State) : Prop :=
  (respStatus r = 0 → t.mode = s.mode ∧ t.ecode = s.ecode ∧ t.ecmd = s.ecmd)
    ∧ (respStatus r ≠ 0 → t.mode = .halted
      ∧ (s.mode = .ready → t.ecode = respStatus r ∧ t.ecmd = w)
      ∧ (s.mode = .halted → t.ecode = s.ecode ∧ t.ecmd = s.ecmd))

/-- What a response word looks like (R59, R60): bits 23 to 19 are 0; the status is one of R191; with an
error status the rest is 0; N and Z are not both set. -/
def responseOk (w : Word) : Bool :=
  decide (w.extractLsb' 19 5 = 0)
    && decide ((respStatus w).toNat ≤ 8)
    && (decide (respStatus w = 0) || decide (w.extractLsb' 0 24 = 0))
    && !(w.getLsbD 16 && w.getLsbD 17)

/-- The invariant of the machine. -/
def State.wf (s : State) : Bool :=
  s.cfg.wf
    && decide (∀ r : RegId, regOk s.cfg (s.reg r) = true)
    && errorRecordOk s
    && s.resps.all responseOk

/-- The registers a command needs Valid, in the order they are checked (10_state.md R25,
60_exceptions.md R203 row 4). -/
def sources : Instr → List RegId
  | .nop | .clre | .rdsr _ | .beginNum _ _ | .pushd _ _ | .endNum _ | .seti _ _ => []
  | .mov _ ra | .neg _ ra | .len ra | .getd ra _ => [ra]
  | .cmp ra rb | .add _ ra rb | .sub _ ra rb | .mul _ ra rb | .div _ ra rb | .rem _ ra rb
  | .divmod _ ra rb _ | .gcd _ ra rb => [ra, rb]
  | .modn _ ra rc | .modinv _ ra rc => [ra, rc]
  | .modmul _ ra rb rc | .modexp _ ra rb rc => [ra, rb, rc]

/-- The registers a command writes when it completes with status OK (10_state.md R25). -/
def destinations : Instr → List RegId
  | .nop | .clre | .rdsr _ | .len _ | .getd _ _ | .cmp _ _ => []
  | .beginNum rd _ | .pushd rd _ | .endNum rd | .seti rd _ | .mov rd _ | .neg rd _
  | .add rd _ _ | .sub rd _ _ | .mul rd _ _ | .div rd _ _ | .rem rd _ _
  | .modn rd _ _ | .modmul rd _ _ _ | .modexp rd _ _ _ | .gcd rd _ _ | .modinv rd _ _ => [rd]
  | .divmod rd _ _ rc => [rd, rc]

/-- The flags of an integer value (30_encoding.md R60), said without digits. -/
def valueFlags (z : Int) : Flags :=
  { z := decide (z = 0), n := decide (z < 0), o := decide (z % 2 = 1) }

/-- The state after a command wrote the integer `z` to `rd` and answered its flags and its length
(R60, R61). -/
def wroteValue (s : State) (rd : RegId) (z : Int) : State :=
  respond (okResponse (valueFlags z) (lenData (big z))) (s.setReg rd (.valid (big z)))

/-- The state after a read-only command answered `data` without flags (R61). -/
def answered (s : State) (data : Half) : State := respond (okResponse noFlags data) s

/-- The decimal reading of a digit list written most significant digit first (20_memory.md R43). -/
def decimalReading (ds : List Nat) : Nat := ds.foldl (fun n d => 10 * n + d) 0

/-- Whether a character is one of `0` to `9`. -/
def isDigitChar (c : Char) : Bool := decide (48 ≤ c.toNat) && decide (c.toNat ≤ 57)

/-- The digit a digit character stands for. -/
def charDigit (c : Char) : Nat := c.toNat - 48

/-- A clean run (R223): it ends in Ready and none of its responses has an error status. -/
def cleanRun (ws : List Word) (s : State) : Bool :=
  match runWords ws s with
  | .next t => decide (t.mode = .ready)
      && (t.resps.drop s.resps.length).all (fun r => decide (respStatus r = 0))
  | .fault _ | .refused _ => false

end Sys2Proof.Machine
end

