-- ==== Sys2Proof/Certificates/Slice0/Obligations.lean ====
section
/-! DEFINITION. The statements for the provers. Each docstring names the rule of spec/ it formalises. A
statement about a running command takes the mode, and what its registers hold, as hypotheses; the
command words, MAXD and the registers' numbers range over all their values. -/

open Sys2Proof Sys2Proof.Machine

/-! ### Encoding -/

/-- R66, R69: decoding an encoded command gives it back, whatever its operands; only DIVMOD with one
register for both results is refused. -/
def Obligations.EncodedCommandDecodesToItself : Prop :=
  ∀ i : Instr, decode (encode i) = if i.wf then .instr i else .illegal .sameDestination

/-- R57, R62, R64: no bit of a legal word is dropped; a word that decodes is the encoding of the
command it decodes to. -/
def Obligations.LegalWordIsItsCommandsEncoding : Prop :=
  ∀ (w : Word) (i : Instr), decode w = .instr i → i.wf = true ∧ encode i = w

/-- R69: every word is selected by exactly one row of the table of R62, and then decodes to that row's
command (or falls to the check of R66), or is selected by none and is illegal. -/
def Obligations.EveryWordIsOneCommandOrIllegal : Prop :=
  opcodeRows.length = 23 ∧
  ∀ w : Word,
    (∃ r ∈ opcodeRows, r.selects w = true ∧ (∀ r' ∈ opcodeRows, r'.selects w = true → r' = r)
      ∧ decode w = if (r.build w).wf then .instr (r.build w) else .illegal .sameDestination)
    ∨ ((∀ r ∈ opcodeRows, r.selects w = false) ∧ ∃ why, decode w = .illegal why)

/-- R56, R57, R58, R62: the word of every command, as a number: the opcode and each operand in its
place, and nothing else. -/
def Obligations.EncodingPutsEveryFieldInItsPlace : Prop :=
  (encode .nop).toNat = 0x00000000 ∧
  (encode .clre).toNat = 0x01000000 ∧
  (∀ idx, (encode (.rdsr idx)).toNat = 0x02000000 + idx.toNat) ∧
  (∀ rd sign, (encode (.beginNum rd sign)).toNat
    = 0x08000000 + rd.val * 2 ^ 20 + (if sign then 1 else 0)) ∧
  (∀ rd c, (encode (.pushd rd c)).toNat = 0x09000000 + rd.val * 2 ^ 20 + c.toNat) ∧
  (∀ rd, (encode (.endNum rd)).toNat = 0x0A000000 + rd.val * 2 ^ 20) ∧
  (∀ rd n, (encode (.seti rd n)).toNat = 0x0B000000 + rd.val * 2 ^ 20 + n.toNat) ∧
  (∀ rd ra, (encode (.mov rd ra)).toNat = 0x0C000000 + rd.val * 2 ^ 20 + ra.val * 2 ^ 16) ∧
  (∀ rd ra, (encode (.neg rd ra)).toNat = 0x0D000000 + rd.val * 2 ^ 20 + ra.val * 2 ^ 16) ∧
  (∀ ra, (encode (.len ra)).toNat = 0x0E000000 + ra.val * 2 ^ 16) ∧
  (∀ ra k, (encode (.getd ra k)).toNat = 0x0F000000 + ra.val * 2 ^ 16 + k.toNat) ∧
  (∀ ra rb, (encode (.cmp ra rb)).toNat = 0x10000000 + ra.val * 2 ^ 16 + rb.val * 2 ^ 12) ∧
  (∀ rd ra rb, (encode (.add rd ra rb)).toNat
    = 0x20000000 + rd.val * 2 ^ 20 + ra.val * 2 ^ 16 + rb.val * 2 ^ 12) ∧
  (∀ rd ra rb, (encode (.sub rd ra rb)).toNat
    = 0x21000000 + rd.val * 2 ^ 20 + ra.val * 2 ^ 16 + rb.val * 2 ^ 12) ∧
  (∀ rd ra rb, (encode (.mul rd ra rb)).toNat
    = 0x28000000 + rd.val * 2 ^ 20 + ra.val * 2 ^ 16 + rb.val * 2 ^ 12) ∧
  (∀ rd ra rb, (encode (.div rd ra rb)).toNat
    = 0x30000000 + rd.val * 2 ^ 20 + ra.val * 2 ^ 16 + rb.val * 2 ^ 12) ∧
  (∀ rd ra rb, (encode (.rem rd ra rb)).toNat
    = 0x31000000 + rd.val * 2 ^ 20 + ra.val * 2 ^ 16 + rb.val * 2 ^ 12) ∧
  (∀ rd ra rb rc, (encode (.divmod rd ra rb rc)).toNat
    = 0x32000000 + rd.val * 2 ^ 20 + ra.val * 2 ^ 16 + rb.val * 2 ^ 12 + rc.val * 2 ^ 8) ∧
  (∀ rd ra rc, (encode (.modn rd ra rc)).toNat
    = 0x38000000 + rd.val * 2 ^ 20 + ra.val * 2 ^ 16 + rc.val * 2 ^ 8) ∧
  (∀ rd ra rb rc, (encode (.modmul rd ra rb rc)).toNat
    = 0x39000000 + rd.val * 2 ^ 20 + ra.val * 2 ^ 16 + rb.val * 2 ^ 12 + rc.val * 2 ^ 8) ∧
  (∀ rd ra rb rc, (encode (.modexp rd ra rb rc)).toNat
    = 0x40000000 + rd.val * 2 ^ 20 + ra.val * 2 ^ 16 + rb.val * 2 ^ 12 + rc.val * 2 ^ 8) ∧
  (∀ rd ra rb, (encode (.gcd rd ra rb)).toNat
    = 0x48000000 + rd.val * 2 ^ 20 + ra.val * 2 ^ 16 + rb.val * 2 ^ 12) ∧
  (∀ rd ra rc, (encode (.modinv rd ra rc)).toNat
    = 0x49000000 + rd.val * 2 ^ 20 + ra.val * 2 ^ 16 + rc.val * 2 ^ 8)

/-- R70 and the tables of 95_test_vectors.md: one word of every unit, read by the decoder. -/
def Obligations.SpecExampleWordsDecode : Prop :=
  decode 0x02000005 = .instr (.rdsr 5) ∧
  decode 0x08300001 = .instr (.beginNum 3 true) ∧
  decode 0x0B10FFF9 = .instr (.seti 1 0xFFF9) ∧
  decode 0x0F020005 = .instr (.getd 2 5) ∧
  decode 0x20123000 = .instr (.add 1 2 3) ∧
  decode 0x28123000 = .instr (.mul 1 2 3) ∧
  decode 0x32134200 = .instr (.divmod 1 3 4 2) ∧
  decode 0x38120300 = .instr (.modn 1 2 3) ∧
  decode 0x40012300 = .instr (.modexp 0 1 2 3) ∧
  decode 0x49120300 = .instr (.modinv 1 2 3)

/-- R63: every reserved opcode value, with any bits below it, is illegal: from Ready the word answers
ERR_ILLEGAL and halts the block, in Halted it answers ERR_HALTED and changes nothing. -/
def Obligations.ReservedOpcodesAreIllegal : Prop :=
  ∀ (s : State) (w : Word) (ws : List Word), s.host = [] → s.cmds = w :: ws →
    (let op := (opField w).toNat
     (0x03 ≤ op ∧ op ≤ 0x07) ∨ (0x11 ≤ op ∧ op ≤ 0x1F) ∨ (0x22 ≤ op ∧ op ≤ 0x27)
      ∨ (0x29 ≤ op ∧ op ≤ 0x2F) ∨ (0x33 ≤ op ∧ op ≤ 0x37) ∨ (0x3A ≤ op ∧ op ≤ 0x3F)
      ∨ (0x41 ≤ op ∧ op ≤ 0x47) ∨ 0x4A ≤ op) →
    decode w = .illegal .reservedOpcode
    ∧ (s.mode = .ready → step s = .next { s with
        cmds := ws, mode := .halted, ecode := 0x07, ecmd := w, resps := s.resps ++ [0x07000000] })
    ∧ (s.mode = .halted → step s = .next { s with cmds := ws, resps := s.resps ++ [0x08000000] })

/-- R64: a word with a defined opcode that breaks a must-be-zero bit, the top bit of a register field
among them, is illegal: from Ready it answers ERR_ILLEGAL and halts the block. -/
def Obligations.MustBeZeroBitsAreChecked : Prop :=
  ∀ (s : State) (w : Word) (ws : List Word) (r : Row), s.host = [] → s.cmds = w :: ws →
    r ∈ opcodeRows → opField w = opField r.pattern → w &&& r.mask ≠ r.pattern →
    decode w = .illegal .reservedBits
    ∧ (s.mode = .ready → step s = .next { s with
        cmds := ws, mode := .halted, ecode := 0x07, ecmd := w, resps := s.resps ++ [0x07000000] })

/-- R66: the DIVMOD word with `rd = rc` is illegal, and from Ready, before any register is read, it answers
ERR_ILLEGAL and halts the block; no other coincidence of registers is illegal. The term DIVMOD with
`rd = rc`, which no word decodes to, ends as its word does: that clause is the model's choice
(log entry 7). -/
def Obligations.DivmodNeedsTwoDestinations : Prop :=
  (∀ rd ra rb, decode (encode (.divmod rd ra rb rd)) = .illegal .sameDestination)
  ∧ (∀ rd ra rb s ws, s.mode = .ready → s.host = [] →
      s.cmds = encode (.divmod rd ra rb rd) :: ws →
      step s = .next { s with
        cmds := ws, mode := .halted, ecode := 0x07, ecmd := encode (.divmod rd ra rb rd),
        resps := s.resps ++ [0x07000000] })
  ∧ (∀ rd ra rb s, s.mode = .ready →
      exec (.divmod rd ra rb rd) s = .next (raiseStatus .illegal (encode (.divmod rd ra rb rd)) s))
  ∧ (∀ i, (¬∃ rd ra rb, i = .divmod rd ra rb rd) → decode (encode i) = .instr i)

/-! ### Responses -/

/-- R59, R191, R202: where the parts of a response word stand, the code of every error status, and that an
error response is its code shifted left by 24. -/
def Obligations.ResponseWordLayout : Prop :=
  (∀ (f : Flags) (d : Half),
    (okResponse f d).extractLsb' 24 8 = 0 ∧ (okResponse f d).extractLsb' 19 5 = 0
    ∧ (okResponse f d).getLsbD 18 = f.o ∧ (okResponse f d).getLsbD 17 = f.n
    ∧ (okResponse f d).getLsbD 16 = f.z ∧ (okResponse f d).extractLsb' 0 16 = d)
  ∧ (∀ st : Status, errResponse st = (st.code.setWidth 32) <<< 24)
  ∧ Status.format.code = 0x01 ∧ Status.divzero.code = 0x02 ∧ Status.notCoprime.code = 0x03
  ∧ Status.overflow.code = 0x04 ∧ Status.domain.code = 0x05 ∧ Status.reg.code = 0x06
  ∧ Status.illegal.code = 0x07 ∧ Status.halted.code = 0x08

/-- R60: the flags of a canonical BigInt say whether its value is zero, negative, odd. -/
def Obligations.FlagsDescribeTheValue : Prop :=
  ∀ v : BigInt, v.canonical = true → flagsOf v = valueFlags (val v)

/-! ### The step, the host and reset -/

/-- R50, R83: a step accepts the oldest offered word, and when it decodes to a command the step is that
command's meaning on the state without the word. That is so on the block's own turn; the host's `wait`,
which gives the block the turn and is then used up, is the model's own scheduling (log entry 2). -/
def Obligations.StepRunsTheDecodedCommand : Prop :=
  ∀ (s : State) (w : Word) (ws : List Word) (i : Instr), s.cmds = w :: ws → decode w = .instr i →
    (s.host = [] → step s = exec i { s with cmds := ws })
    ∧ (∀ es, s.host = .wait :: es → step s = exec i { s with cmds := ws, host := es })

/-- R222: no step ends in a fault or a refusal; on the block's own turn every word leaves the queue and
produces exactly one response, behind those already there, whatever the word and the state. -/
def Obligations.EveryCommandAnswersOnce : Prop :=
  (∀ s : State, ∃ t, step s = .next t)
  ∧ ∀ (s : State) (w : Word) (ws : List Word), s.host = [] → s.cmds = w :: ws →
      ∃ r t, step s = .next t ∧ t.cmds = ws ∧ t.resps = s.resps ++ [r] ∧ t.host = [] ∧ t.cfg = s.cfg

/-- R35, R31: what reset leaves, for every instance: the registers, the mode, the error record, the
channels, and what each status register then reads as. -/
def Obligations.StateAfterReset : Prop :=
  ∀ c : Config,
    let s := State.resetOf c
    (∀ r, s.reg r = .invalid) ∧ s.mode = .ready ∧ s.ecode = 0 ∧ s.ecmd = 0x00000000
    ∧ s.cmds = [] ∧ s.resps = [] ∧ s.cfg = c
    ∧ statusRegister s 0 = some 0x0415 ∧ statusRegister s 1 = some 0x0100
    ∧ statusRegister s 2 = some 8 ∧ statusRegister s 3 = some (BitVec.ofNat 16 c.maxd)
    ∧ statusRegister s 4 = some 0 ∧ statusRegister s 5 = some 0 ∧ statusRegister s 6 = some 0
    ∧ statusRegister s 7 = some 0 ∧ statusRegister s 8 = some 0x0000
    ∧ statusRegister s 9 = some 0x0000

/-- R215, R216, R55: the host's actions. Reset is enabled in every state and leaves the reset state, with
offered words and untaken responses dropped; issuing a word puts it behind those offered; taking removes
the oldest response. That taking from an empty channel changes nothing, and that the host's own coming
actions survive reset, is the model's choice (log entries 2 and 3). -/
def Obligations.HostActionsAndReset : Prop :=
  ∀ (s : State) (es : List HostEvent),
    (s.host = .reset :: es → step s = .next { State.resetOf s.cfg with host := es })
    ∧ (∀ w, s.host = .issue w :: es → step s = .next { s with host := es, cmds := s.cmds ++ [w] })
    ∧ (∀ r rs, s.host = .take :: es → s.resps = r :: rs →
        step s = .next { s with host := es, resps := rs })
    ∧ (s.host = .take :: es → s.resps = [] → step s = .next { s with host := es })

/-- R210: an idle block waits for a command, and waiting changes no state. The second clause, that the
host's `wait` with no word to accept only uses up the `wait`, is the model's choice (log entry 2): the
spec has no such host action. -/
def Obligations.IdleBlockChangesNothing : Prop :=
  ∀ s : State, s.cmds = [] → (s.host = [] → step s = .next s)
    ∧ (∀ es, s.host = .wait :: es → step s = .next { s with host := es })

/-! ### Errors, halt and clear -/

/-- R199, R200, R202: whenever a word answers an error status, no register has changed, and from Ready
the block has latched that status and the word and is Halted; in Halted nothing but the response has
changed. -/
def Obligations.ErrorLatchesAndChangesNothingElse : Prop :=
  ∀ (s t : State) (w r : Word) (ws : List Word), s.host = [] → s.cmds = w :: ws → step s = .next t →
    t.resps = s.resps ++ [r] → respStatus r ≠ 0 →
    r = (respStatus r).setWidth 32 <<< 24
    ∧ (s.mode = .ready → t = { s with
        cmds := ws, mode := .halted, ecode := respStatus r, ecmd := w, resps := s.resps ++ [r] })
    ∧ (s.mode = .halted → t = { s with cmds := ws, resps := s.resps ++ [r] })

/-- R201: in Halted every word whose opcode byte is neither CLRE's nor RDSR's answers ERR_HALTED,
legal or not, and changes no state at all. -/
def Obligations.HaltedBlockRefusesOtherWords : Prop :=
  ∀ (s : State) (w : Word) (ws : List Word), s.host = [] → s.cmds = w :: ws → s.mode = .halted →
    opField w ≠ 0x01 → opField w ≠ 0x02 →
    step s = .next { s with cmds := ws, resps := s.resps ++ [0x08000000] }

/-- R205: in Halted no word but the exact CLRE touches the error record or the mode, so they describe the
first failing command since the last CLRE or reset; CLRE cannot fail and clears them; a CLRE or RDSR word
that is illegal answers ERR_ILLEGAL and keeps the record. No register changes in any of these cases. -/
def Obligations.ErrorRecordKeepsTheFirstError : Prop :=
  ∀ (s t : State) (w : Word) (ws : List Word), s.host = [] → s.cmds = w :: ws → s.mode = .halted →
    step s = .next t →
    t.regs = s.regs
    ∧ (w ≠ 0x01000000 → t.mode = .halted ∧ t.ecode = s.ecode ∧ t.ecmd = s.ecmd)
    ∧ (w = 0x01000000 → t = { s with
        cmds := ws, mode := .ready, ecode := 0, ecmd := 0, resps := s.resps ++ [0x00000000] })
    ∧ ((opField w = 0x01 ∧ w ≠ 0x01000000) ∨ (opField w = 0x02 ∧ 0x02000009 < w.toNat) →
        t.resps = s.resps ++ [0x07000000])

/-- R29: MODE goes from Ready to Halted exactly when a command completes with an error status, and from
Halted to Ready on CLRE or reset only; no other action of the host moves it. -/
def Obligations.ModeMovesOnlyOnErrorClreAndReset : Prop :=
  (∀ (s t : State) (w r : Word) (ws : List Word), s.host = [] → s.cmds = w :: ws →
    step s = .next t → t.resps = s.resps ++ [r] →
    (s.mode = .ready → (t.mode = .halted ↔ respStatus r ≠ 0))
    ∧ (s.mode = .halted → (t.mode = .ready ↔ w = 0x01000000)))
  ∧ (∀ (s t : State) (e : HostEvent) (es : List HostEvent), s.host = e :: es → step s = .next t →
      (e = .reset → t.mode = .ready) ∧ (e ≠ .reset → e ≠ .wait → t.mode = s.mode))

/-- R219, R201: when the block is Halted, every word queued behind the failing command, other than CLRE
and RDSR, answers ERR_HALTED; nothing runs on stale data. This holds of the words that stand on the
command channel, however many, while the host does nothing else, and of a run of such words
(`runWords`; that it offers its words in front of the queue is the model's choice, log entry 4). -/
def Obligations.QueuedCommandsDoNotRunWhileHalted : Prop :=
  ∀ (ws : List Word) (s : State), s.mode = .halted →
    (∀ w ∈ ws, opField w ≠ 0x01 ∧ opField w ≠ 0x02) →
    runWords ws s
      = .next { s with resps := s.resps ++ List.replicate ws.length (0x08000000 : Word) }
    ∧ (∀ behind : List Word, s.host = [] → s.cmds = ws ++ behind →
        runSteps ws.length s = .next { s with
          cmds := behind, resps := s.resps ++ List.replicate ws.length (0x08000000 : Word) })

/-- R191 to R198, R201: each status is raised by the commands that the table of R191 lists for it, and by
no other; ERR_HALTED by any command but CLRE and RDSR, in Halted only. Of decoded commands only RDSR
raises ERR_ILLEGAL; that the term DIVMOD with `rd = rc`, which no word decodes to, raises it as well is
the model's choice (log entry 7). -/
def Obligations.StatusesRaisedByTheirCommandsOnly : Prop :=
  ∀ (i : Instr) (s t : State) (st : Status), exec i s = .next t →
    t.resps = s.resps ++ [errResponse st] →
    (st = .format → (∃ rd c, i = .pushd rd c) ∨ (∃ rd, i = .endNum rd))
    ∧ (st = .divzero → (∃ rd ra rb, i = .div rd ra rb) ∨ (∃ rd ra rb, i = .rem rd ra rb)
        ∨ (∃ rd ra rb rc, i = .divmod rd ra rb rc) ∨ (∃ rd ra rc, i = .modn rd ra rc)
        ∨ (∃ rd ra rb rc, i = .modmul rd ra rb rc) ∨ (∃ rd ra rb rc, i = .modexp rd ra rb rc)
        ∨ (∃ rd ra rc, i = .modinv rd ra rc))
    ∧ (st = .notCoprime → ∃ rd ra rc, i = .modinv rd ra rc)
    ∧ (st = .overflow → (∃ rd c, i = .pushd rd c) ∨ (∃ rd n, i = .seti rd n)
        ∨ (∃ rd ra rb, i = .add rd ra rb) ∨ (∃ rd ra rb, i = .sub rd ra rb)
        ∨ (∃ rd ra rb, i = .mul rd ra rb))
    ∧ (st = .domain → (∃ ra k, i = .getd ra k) ∨ (∃ rd ra rc, i = .modn rd ra rc)
        ∨ (∃ rd ra rb rc, i = .modmul rd ra rb rc) ∨ (∃ rd ra rb rc, i = .modexp rd ra rb rc)
        ∨ (∃ rd ra rc, i = .modinv rd ra rc))
    ∧ (st = .reg → sources i ≠ [] ∨ (∃ rd c, i = .pushd rd c) ∨ (∃ rd, i = .endNum rd))
    ∧ (st = .illegal → (∃ idx, i = .rdsr idx) ∨ i.wf = false)
    ∧ (st = .halted → s.mode = .halted ∧ i ≠ .clre ∧ ∀ idx, i ≠ .rdsr idx)

/-- R197, R203: a source register that is not Valid, or a target of PUSHD or END that is not Open,
raises ERR_REG before any other check of the operands. -/
def Obligations.WrongRegisterStateRaisesErrReg : Prop :=
  (∀ (i : Instr) (s : State), s.mode = .ready → i.wf = true →
    (∃ r ∈ sources i, (s.reg r).isValid = false) →
    exec i s = .next (raiseStatus .reg (encode i) s))
  ∧ (∀ (rd : RegId) (s : State), s.mode = .ready → (s.reg rd).isOpen = false →
      (∀ c, exec (.pushd rd c) s = .next (raiseStatus .reg (encode (.pushd rd c)) s))
      ∧ exec (.endNum rd) s = .next (raiseStatus .reg (encode (.endNum rd)) s))

/-- R197, R25: a command does not look at a register it neither reads as a source nor extends; putting
anything there changes neither its response nor the error record nor what it does to other registers.
The term DIVMOD with one register for both results is among the commands here (log entry 7). -/
def Obligations.UnreadRegistersDoNotMatter : Prop :=
  ∀ (i : Instr) (s : State) (r : RegId) (x : RegState), r ∉ sources i →
    (∀ idx, i ≠ .rdsr idx) → (∀ c, i ≠ .pushd r c) → i ≠ .endNum r →
    ∃ t u, exec i s = .next t ∧ exec i (s.setReg r x) = .next u
      ∧ u.resps = t.resps ∧ u.mode = t.mode ∧ u.ecode = t.ecode ∧ u.ecmd = t.ecmd
      ∧ (∀ q, q ≠ r → u.reg q = t.reg q)
      ∧ ((t.reg r = s.reg r ∧ u.reg r = x) ∨ u.reg r = t.reg r)

/-! ### Invariants -/

/-- R13, R30, R35: the invariant holds after reset, for every legal MAXD. -/
def Obligations.ResetStateMeetsTheInvariant : Prop :=
  State.reset.wf = true ∧ ∀ c : Config, c.wf = true → (State.resetOf c).wf = true

/-- R22, R26, R30, R59: from every state that meets the invariant, a step of the host or the block gives
a state that meets it: Valid registers canonical and at most MAXD digits, Open registers at most MAXD
digits, the error record zero exactly in Ready, every response well formed, MAXD in its range. -/
def Obligations.StepKeepsTheInvariant : Prop :=
  ∀ s t : State, s.wf = true → step s = .next t → t.wf = true

/-- R24: no command, and no action of the host but reset, makes a register Invalid that was not. -/
def Obligations.NoCommandMakesARegisterInvalid : Prop :=
  ∀ (s t : State) (r : RegId), (∀ es, s.host ≠ .reset :: es) → step s = .next t →
    s.reg r ≠ .invalid → t.reg r ≠ .invalid

/-! ### Frames -/

/-- R48, R25: NOP, RDSR, LEN, GETD and CMP change no register and, when they complete with status OK,
nothing at all but the response channel; with an error status only the halt entry of R200 comes to it. -/
def Obligations.ReadOnlyCommandsFrame : Prop :=
  ∀ (i : Instr) (s t : State),
    i = .nop ∨ (∃ idx, i = .rdsr idx) ∨ (∃ ra, i = .len ra) ∨ (∃ ra k, i = .getd ra k)
      ∨ (∃ ra rb, i = .cmp ra rb) →
    exec i s = .next t →
    ∃ r, t.resps = s.resps ++ [r] ∧ t.regs = s.regs ∧ t.cfg = s.cfg ∧ t.cmds = s.cmds
      ∧ t.host = s.host ∧ recordFollows (encode i) r s t

/-- R25, R199: the commands with one destination register change no other register; with an error status
they change no register; the error record and MODE change only as the halt entry of R200 says. -/
def Obligations.OneDestinationCommandsFrame : Prop :=
  ∀ (i : Instr) (rd : RegId) (s t : State), destinations i = [rd] → exec i s = .next t →
    ∃ r, t.resps = s.resps ++ [r] ∧ t.cfg = s.cfg ∧ t.cmds = s.cmds ∧ t.host = s.host
      ∧ (∀ q, q ≠ rd → t.reg q = s.reg q)
      ∧ (respStatus r ≠ 0 → t.regs = s.regs)
      ∧ recordFollows (encode i) r s t

/-- R25, R145, R199: DIVMOD changes no register but its two destinations, and none with an error status,
and the error record and MODE only as the halt entry of R200 says; CLRE changes no register. The term
DIVMOD with `rd = rc`, which no word decodes to, is included (log entry 7, the model's choice). -/
def Obligations.DivmodAndClreFrame : Prop :=
  (∀ (rd ra rb rc : RegId) (s t : State), exec (.divmod rd ra rb rc) s = .next t →
    ∃ r, t.resps = s.resps ++ [r] ∧ t.cfg = s.cfg ∧ t.cmds = s.cmds ∧ t.host = s.host
      ∧ (∀ q, q ≠ rd → q ≠ rc → t.reg q = s.reg q)
      ∧ (respStatus r ≠ 0 → t.regs = s.regs)
      ∧ recordFollows (encode (.divmod rd ra rb rc)) r s t)
  ∧ (∀ s t : State, exec .clre s = .next t →
      t.regs = s.regs ∧ t.cfg = s.cfg ∧ t.cmds = s.cmds ∧ t.host = s.host)

/-! ### System commands -/

/-- R80, R81, R204: NOP in Ready answers 0 and changes nothing else; CLRE in either mode answers 0 and
leaves Ready with a cleared record. -/
def Obligations.NopAndClreComplete : Prop :=
  ∀ s : State,
    (s.mode = .ready → exec .nop s = .next { s with resps := s.resps ++ [0x00000000] })
    ∧ exec .clre s = .next { s with
        mode := .ready, ecode := 0, ecmd := 0, resps := s.resps ++ [0x00000000] }

/-- R31, R82: in both modes RDSR answers the value of the status register and changes nothing else; a
reserved index raises ERR_ILLEGAL, which in Halted keeps the error record. -/
def Obligations.RdsrReadsTheStatusRegisters : Prop :=
  ∀ (s : State) (idx : Byte),
    (idx.toNat ≤ 9 → ∃ v : Half, exec (.rdsr idx) s = .next (answered s v)
      ∧ (idx = 0 → v = 0x0415) ∧ (idx = 1 → v = 0x0100) ∧ (idx = 2 → v = 8)
      ∧ (idx = 3 → v = BitVec.ofNat 16 s.cfg.maxd)
      ∧ (idx = 4 → v = if s.mode = .halted then 1 else 0)
      ∧ (idx = 5 → v.toNat = s.ecode.toNat)
      ∧ (idx = 6 → v.toNat = s.ecmd.toNat % 2 ^ 16) ∧ (idx = 7 → v.toNat = s.ecmd.toNat / 2 ^ 16)
      ∧ (idx = 8 → ∀ k : Nat, v.getLsbD k = if h : k < 8 then (s.reg ⟨k, h⟩).isValid else false)
      ∧ (idx = 9 → ∀ k : Nat, v.getLsbD k = if h : k < 8 then (s.reg ⟨k, h⟩).isOpen else false))
    ∧ (9 < idx.toNat → s.mode = .ready → exec (.rdsr idx) s = .next { s with
        mode := .halted, ecode := 0x07, ecmd := encode (.rdsr idx),
        resps := s.resps ++ [0x07000000] })
    ∧ (9 < idx.toNat → s.mode = .halted →
        exec (.rdsr idx) s = .next { s with resps := s.resps ++ [0x07000000] })

/-! ### Construction and read-back -/

/-- R84: BEGIN in Ready opens the register with the sign and no digits, whatever it held; in Halted it
answers ERR_HALTED. -/
def Obligations.BeginOpensTheRegister : Prop :=
  ∀ (s : State) (rd : RegId) (sign : Bool),
    (s.mode = .ready →
      exec (.beginNum rd sign) s = .next (answered (s.setReg rd (.opened sign [])) 0))
    ∧ (s.mode = .halted →
      exec (.beginNum rd sign) s = .next { s with resps := s.resps ++ [0x08000000] })

/-- R85: PUSHD in Ready: ERR_REG on a register that is not Open; on an Open one ERR_FORMAT for a code
above 9, else ERR_OVERFLOW when MAXD digits are already there, else the digit is appended and the count
answered. On an error the register stays as it was. In Halted it answers ERR_HALTED. -/
def Obligations.PushdAppendsTheDigit : Prop :=
  ∀ (s : State) (rd : RegId) (c : Byte),
    (∀ (sign : Bool) (ds : List Digit), s.mode = .ready → s.reg rd = .opened sign ds →
      (9 < c.toNat → exec (.pushd rd c) s = .next (raiseStatus .format (encode (.pushd rd c)) s))
      ∧ (∀ d : Digit, c.toNat = d.val →
          (ds.length = s.cfg.maxd →
            exec (.pushd rd c) s = .next (raiseStatus .overflow (encode (.pushd rd c)) s))
          ∧ (ds.length ≠ s.cfg.maxd → exec (.pushd rd c) s = .next
              (answered (s.setReg rd (.opened sign (ds ++ [d])))
                (BitVec.ofNat 16 (ds.length + 1))))))
    ∧ (s.mode = .ready → (s.reg rd).isOpen = false →
        exec (.pushd rd c) s = .next (raiseStatus .reg (encode (.pushd rd c)) s))
    ∧ (∀ st, (raiseStatus st (encode (.pushd rd c)) s).reg rd = s.reg rd)
    ∧ (s.mode = .halted →
        exec (.pushd rd c) s = .next { s with resps := s.resps ++ [0x08000000] })

/-- R86: END in Ready: ERR_REG on a register that is not Open; on an Open one ERR_FORMAT when no digit was
pushed, else the register holds the canonical BigInt of the decimal reading of the pushed digits under the
sign, zero never negative. In Halted it answers ERR_HALTED. -/
def Obligations.EndCanonicalisesTheDigits : Prop :=
  ∀ (s : State) (rd : RegId),
    (∀ (sign : Bool) (ds : List Digit), s.mode = .ready → s.reg rd = .opened sign ds →
      (ds = [] → exec (.endNum rd) s = .next (raiseStatus .format (encode (.endNum rd)) s))
      ∧ (ds ≠ [] → exec (.endNum rd) s = .next (wroteValue s rd
          (if sign then -(decimalReading (ds.map Fin.val) : Int)
            else (decimalReading (ds.map Fin.val) : Int)))))
    ∧ (s.mode = .ready → (s.reg rd).isOpen = false →
        exec (.endNum rd) s = .next (raiseStatus .reg (encode (.endNum rd)) s))
    ∧ (s.mode = .halted →
        exec (.endNum rd) s = .next { s with resps := s.resps ++ [0x08000000] })

/-- R88: SETI in Ready writes the two's-complement value of the immediate, or raises ERR_OVERFLOW when it
has more than MAXD digits; in Halted it answers ERR_HALTED. -/
def Obligations.SetiWritesTheImmediate : Prop :=
  ∀ (s : State) (rd : RegId) (n : Half), s.cfg.wf = true →
    (s.mode = .ready → n.toInt.natAbs < 10 ^ s.cfg.maxd →
      exec (.seti rd n) s = .next (wroteValue s rd n.toInt))
    ∧ (s.mode = .ready → 10 ^ s.cfg.maxd ≤ n.toInt.natAbs →
        exec (.seti rd n) s = .next (raiseStatus .overflow (encode (.seti rd n)) s))
    ∧ (s.mode = .halted →
        exec (.seti rd n) s = .next { s with resps := s.resps ++ [0x08000000] })

/-- R87: PARSE of an optional `-` and one to MAXD digit characters leaves the register holding the
decimal reading of the text, the block Ready and every other register as it was. Which characters are
digits, and the codes the host sends for them, are Lean's character codes: the model's choice (log
entry 11). -/
def Obligations.ParseReadsTheDecimalText : Prop :=
  ∀ (s : State) (rd : RegId) (text : List Char), s.mode = .ready → s.cfg.wf = true →
    afterMinus text ≠ [] → (∀ c ∈ afterMinus text, isDigitChar c = true) →
    (afterMinus text).length ≤ s.cfg.maxd →
    ∃ t, runInstrs (parseSeq rd text) s = .next t
      ∧ t.mode = .ready ∧ t.ecode = s.ecode ∧ t.ecmd = s.ecmd ∧ (∀ q, q ≠ rd → t.reg q = s.reg q)
      ∧ t.reg rd = .valid (big
          (if hasMinus text then -(decimalReading ((afterMinus text).map charDigit) : Int)
            else (decimalReading ((afterMinus text).map charDigit) : Int)))

/-- R87: PARSE fails with ERR_FORMAT on a text without digits and on a non-digit character after at
most MAXD digits, and with ERR_OVERFLOW on one digit more than MAXD; no register but the target
changes. Which characters are digits, and the code the host sends for any other, are the model's choice
(log entry 11). -/
def Obligations.ParseRejectsOtherTexts : Prop :=
  ∀ (s : State) (rd : RegId) (text : List Char), s.mode = .ready → s.cfg.wf = true →
    ∃ t, runInstrs (parseSeq rd text) s = .next t ∧ (∀ q, q ≠ rd → t.reg q = s.reg q)
      ∧ (afterMinus text = [] → t.mode = .halted ∧ t.ecode = 0x01)
      ∧ (∀ before c after, afterMinus text = before ++ c :: after →
          (∀ x ∈ before, isDigitChar x = true) →
          (isDigitChar c = false → before.length ≤ s.cfg.maxd → t.mode = .halted ∧ t.ecode = 0x01)
          ∧ (isDigitChar c = true → before.length = s.cfg.maxd →
              t.mode = .halted ∧ t.ecode = 0x04))

/-- R92, R93, R44: FORMAT of a Valid register answers its flags and length and then its digits, most
significant first, and changes nothing but the response channel. -/
def Obligations.FormatReadsTheDigitsBack : Prop :=
  ∀ (s : State) (ra : RegId) (v : BigInt), s.mode = .ready → s.reg ra = .valid v →
    v.canonical = true → v.len ≤ 65535 →
    runInstrs (formatSeq ra v.len) s = .next { s with
      resps := s.resps ++ (okResponse (valueFlags (val v)) (BitVec.ofNat 16 v.len)
        :: v.digits.reverse.map fun d => okResponse noFlags (BitVec.ofNat 16 d.val)) }

/-- R94: formatting what PARSE built from a canonical text gives the text back: the N flag of LEN is the
leading `-`, and the digits come in the order they were written. Which characters are digits, and the
codes the host sends for them, are the model's choice (log entry 11). -/
def Obligations.ParseThenFormatGivesTheTextBack : Prop :=
  ∀ (s : State) (rd : RegId) (text : List Char), s.mode = .ready → s.cfg.wf = true →
    afterMinus text ≠ [] → (∀ c ∈ afterMinus text, isDigitChar c = true) →
    (afterMinus text).length ≤ s.cfg.maxd →
    ((afterMinus text).head? = some '0' → text = ['0']) →
    ∃ t u f, runInstrs (parseSeq rd text) s = .next t
      ∧ runInstrs (formatSeq rd (afterMinus text).length) t = .next u
      ∧ u.resps = t.resps ++ (okResponse f (BitVec.ofNat 16 (afterMinus text).length)
          :: (afterMinus text).map fun c => okResponse noFlags (BitVec.ofNat 16 (charDigit c)))
      ∧ f.n = hasMinus text

/-! ### Move, negate, read, compare -/

/-- R89, R90: MOV copies a Valid register and NEG writes the negative of its value, zero staying
non-negative. -/
def Obligations.MovAndNegWriteTheirResult : Prop :=
  ∀ (s : State) (rd ra : RegId) (a : BigInt), s.mode = .ready → s.reg ra = .valid a →
    a.canonical = true →
    exec (.mov rd ra) s = .next (wroteValue s rd (val a)) ∧ big (val a) = a
    ∧ exec (.neg rd ra) s = .next (wroteValue s rd (-val a))

/-- R92, R93: LEN answers flags and length; GETD answers the digit of weight `10^k`, and raises
ERR_DOMAIN at and past the length. -/
def Obligations.LenAndGetdReadTheRegister : Prop :=
  ∀ (s : State) (ra : RegId) (k : Half) (a : BigInt), s.mode = .ready → s.reg ra = .valid a →
    a.canonical = true →
    exec (.len ra) s
      = .next (respond (okResponse (valueFlags (val a)) (BitVec.ofNat 16 a.digits.length)) s)
    ∧ (k.toNat < a.digits.length →
        exec (.getd ra k) s
          = .next (answered s (BitVec.ofNat 16 ((val a).natAbs / 10 ^ k.toNat % 10))))
    ∧ (a.digits.length ≤ k.toNat →
        exec (.getd ra k) s = .next (raiseStatus .domain (encode (.getd ra k)) s))

/-- R95, R96: CMP answers 0x0000, 0x0001 or 0xFFFF as the first value is equal to, greater than or less
than the second, and changes nothing else. -/
def Obligations.CmpOrdersTheValues : Prop :=
  ∀ (s : State) (ra rb : RegId) (a b : BigInt), s.mode = .ready → s.reg ra = .valid a →
    s.reg rb = .valid b → a.canonical = true → b.canonical = true →
    exec (.cmp ra rb) s = .next { s with
      resps := s.resps ++ [if val a < val b then (0x0000FFFF : Word)
        else if val a = val b then 0x00000000 else 0x00000001] }

/-! ### The arithmetic commands -/

/-- R115, R116: ADD and SUB write the exact sum and difference of the values, or raise ERR_OVERFLOW when
it has more than MAXD digits. -/
def Obligations.AddAndSubAreExact : Prop :=
  ∀ (s : State) (rd ra rb : RegId) (a b : BigInt), s.mode = .ready → s.cfg.wf = true →
    s.reg ra = .valid a → s.reg rb = .valid b → a.canonical = true → b.canonical = true →
    ((val a + val b).natAbs < 10 ^ s.cfg.maxd →
      exec (.add rd ra rb) s = .next (wroteValue s rd (val a + val b)))
    ∧ (10 ^ s.cfg.maxd ≤ (val a + val b).natAbs →
        exec (.add rd ra rb) s = .next (raiseStatus .overflow (encode (.add rd ra rb)) s))
    ∧ ((val a - val b).natAbs < 10 ^ s.cfg.maxd →
        exec (.sub rd ra rb) s = .next (wroteValue s rd (val a - val b)))
    ∧ (10 ^ s.cfg.maxd ≤ (val a - val b).natAbs →
        exec (.sub rd ra rb) s = .next (raiseStatus .overflow (encode (.sub rd ra rb)) s))

/-- R132: MUL writes the exact product of the values, or raises ERR_OVERFLOW when the canonical product
has more than MAXD digits. -/
def Obligations.MulIsExact : Prop :=
  ∀ (s : State) (rd ra rb : RegId) (a b : BigInt), s.mode = .ready → s.cfg.wf = true →
    s.reg ra = .valid a → s.reg rb = .valid b → a.canonical = true → b.canonical = true →
    ((val a * val b).natAbs < 10 ^ s.cfg.maxd →
      exec (.mul rd ra rb) s = .next (wroteValue s rd (val a * val b)))
    ∧ (10 ^ s.cfg.maxd ≤ (val a * val b).natAbs →
        exec (.mul rd ra rb) s = .next (raiseStatus .overflow (encode (.mul rd ra rb)) s))

/-- R142 to R145: DIV truncates toward zero; REM has the magnitude of the remainder and is negative
exactly when the signs differ; DIVMOD writes both and answers for the quotient; a zero divisor raises
ERR_DIVZERO. -/
def Obligations.DivRemDivmodResults : Prop :=
  ∀ (s : State) (rd ra rb rc : RegId) (a b : BigInt), s.mode = .ready → rd ≠ rc →
    s.reg ra = .valid a → s.reg rb = .valid b → a.canonical = true → b.canonical = true →
    let r : Int := if a.neg = b.neg then ((val a).natAbs % (val b).natAbs : Nat)
      else -((val a).natAbs % (val b).natAbs : Nat)
    (val b ≠ 0 →
      exec (.div rd ra rb) s = .next (wroteValue s rd ((val a).tdiv (val b)))
      ∧ exec (.rem rd ra rb) s = .next (wroteValue s rd r)
      ∧ exec (.divmod rd ra rb rc) s = .next
          ((wroteValue s rd ((val a).tdiv (val b))).setReg rc (.valid (big r))))
    ∧ (val b = 0 →
      exec (.div rd ra rb) s = .next (raiseStatus .divzero (encode (.div rd ra rb)) s)
      ∧ exec (.rem rd ra rb) s = .next (raiseStatus .divzero (encode (.rem rd ra rb)) s)
      ∧ exec (.divmod rd ra rb rc) s
          = .next (raiseStatus .divzero (encode (.divmod rd ra rb rc)) s))

/-- R155 to R157, R159: MODN and MODMUL write the residue in `[0, m)`, never overflowing; a zero modulus
raises ERR_DIVZERO, a negative one ERR_DOMAIN. -/
def Obligations.ModnAndModmulReduce : Prop :=
  ∀ (s : State) (rd ra rb rc : RegId) (a b m : BigInt), s.mode = .ready →
    s.reg ra = .valid a → s.reg rb = .valid b → s.reg rc = .valid m →
    a.canonical = true → b.canonical = true → m.canonical = true →
    (0 < val m →
      exec (.modn rd ra rc) s = .next (wroteValue s rd (val a % val m))
      ∧ exec (.modmul rd ra rb rc) s = .next (wroteValue s rd (val a * val b % val m)))
    ∧ (val m = 0 →
      exec (.modn rd ra rc) s = .next (raiseStatus .divzero (encode (.modn rd ra rc)) s)
      ∧ exec (.modmul rd ra rb rc) s
          = .next (raiseStatus .divzero (encode (.modmul rd ra rb rc)) s))
    ∧ (val m < 0 →
      exec (.modn rd ra rc) s = .next (raiseStatus .domain (encode (.modn rd ra rc)) s)
      ∧ exec (.modmul rd ra rb rc) s
          = .next (raiseStatus .domain (encode (.modmul rd ra rb rc)) s))

/-- R166, R167: MODEXP writes the residue of the integer power for a positive exponent and `1 emod m` for
any other, base 0 included; the modulus is checked before anything is computed. -/
def Obligations.ModexpIsTheResidueOfThePower : Prop :=
  ∀ (s : State) (rd ra rb rc : RegId) (base e m : BigInt), s.mode = .ready →
    s.reg ra = .valid base → s.reg rb = .valid e → s.reg rc = .valid m →
    base.canonical = true → e.canonical = true → m.canonical = true →
    (0 < val m → 1 ≤ val e →
      exec (.modexp rd ra rb rc) s
        = .next (wroteValue s rd (val base ^ (val e).toNat % val m)))
    ∧ (0 < val m → val e ≤ 0 →
      exec (.modexp rd ra rb rc) s = .next (wroteValue s rd (1 % val m)))
    ∧ (val m = 0 →
      exec (.modexp rd ra rb rc) s
        = .next (raiseStatus .divzero (encode (.modexp rd ra rb rc)) s))
    ∧ (val m < 0 →
      exec (.modexp rd ra rb rc) s
        = .next (raiseStatus .domain (encode (.modexp rd ra rb rc)) s))

/-- R175, R176: GCD writes the greatest common divisor of the magnitudes, with `gcd(0, 0) = 0`. -/
def Obligations.GcdIsTheGreatestCommonDivisor : Prop :=
  ∀ (s : State) (rd ra rb : RegId) (a b : BigInt), s.mode = .ready →
    s.reg ra = .valid a → s.reg rb = .valid b → a.canonical = true → b.canonical = true →
    exec (.gcd rd ra rb) s = .next (wroteValue s rd (Int.gcd (val a) (val b)))

/-- R178, R179: MODINV writes the one inverse in `[0, m)` when value and modulus are coprime, and raises
ERR_NOTCOPRIME when they are not; the modulus is checked first. -/
def Obligations.ModinvIsTheInverse : Prop :=
  ∀ (s : State) (rd ra rc : RegId) (e m : BigInt), s.mode = .ready →
    s.reg ra = .valid e → s.reg rc = .valid m → e.canonical = true → m.canonical = true →
    (0 < val m → Int.gcd (val e % val m) (val m) = 1 →
      ∃ d : Int, 0 ≤ d ∧ d < val m ∧ val e * d % val m = 1 % val m
        ∧ (∀ d' : Int, 0 ≤ d' → d' < val m → val e * d' % val m = 1 % val m → d' = d)
        ∧ exec (.modinv rd ra rc) s = .next (wroteValue s rd d))
    ∧ (0 < val m → Int.gcd (val e % val m) (val m) ≠ 1 →
      exec (.modinv rd ra rc) s
        = .next (raiseStatus .notCoprime (encode (.modinv rd ra rc)) s))
    ∧ (val m = 0 →
      exec (.modinv rd ra rc) s = .next (raiseStatus .divzero (encode (.modinv rd ra rc)) s))
    ∧ (val m < 0 →
      exec (.modinv rd ra rc) s = .next (raiseStatus .domain (encode (.modinv rd ra rc)) s))

/-! ### The units -/

/-- R14: canonical BigInts and integers correspond one to one, and `canon` gives the canonical BigInt of
the value of its digits under its sign. -/
def Obligations.CanonicalBigIntsAreTheIntegers : Prop :=
  (∀ z : Int, (big z).canonical = true ∧ val (big z) = z)
  ∧ (∀ v : BigInt, v.canonical = true → big (val v) = v)
  ∧ (∀ (sign : Bool) (ds : List Digit), ds ≠ [] →
      canon sign ds = big (if sign then -(mag ds : Int) else (mag ds : Int)))

/-- R15, R95: the magnitude comparator and the signed comparator order canonical operands as their
magnitudes and their values are ordered, and answer EQ only on operands that are the same. -/
def Obligations.ComparatorsOrderCanonicalOperands : Prop :=
  ∀ a b : BigInt, a.canonical = true → b.canonical = true →
    cmpMag a.digits b.digits = compare (mag a.digits) (mag b.digits)
    ∧ cmpBig a b = compare (val a) (val b)
    ∧ (cmpBig a b = .eq ↔ a = b)

/-- R111: the carry chain. The carry starts at 0 and moves upward; each output digit is the sum of the
padded input digits and the carry, modulo 10; a final carry is one more digit 1; the result is the exact
sum and, of canonical operands, needs no stripping. -/
def Obligations.AdderCarryChain : Prop :=
  ∀ x y : List Digit,
    let n := max x.length y.length
    let digit := fun (ds : List Digit) (i : Nat) => (ds.getD i 0).val
    (∃ carry : Nat → Nat, carry 0 = 0
      ∧ (∀ i, i < n → carry (i + 1) = (digit x i + digit y i + carry i) / 10
          ∧ digit (addMag x y) i = (digit x i + digit y i + carry i) % 10)
      ∧ (carry n = 0 → (addMag x y).length = n)
      ∧ (carry n = 1 → (addMag x y).length = n + 1 ∧ digit (addMag x y) n = 1)
      ∧ carry n ≤ 1)
    ∧ mag (addMag x y) = mag x + mag y
    ∧ (∀ a b : BigInt, a.canonical = true → b.canonical = true →
        strip (addMag a.digits b.digits) = addMag a.digits b.digits)

/-- R113: the borrow chain. For `mag(x) >= mag(y)` the borrow starts at 0, moves upward and ends at 0;
each position gives the difference modulo 10; the stripped result is the exact difference. -/
def Obligations.SubtractorBorrowChain : Prop :=
  ∀ x y : List Digit, mag y ≤ mag x →
    let digit := fun (ds : List Digit) (i : Nat) => (ds.getD i 0).val
    (∃ borrow : Nat → Nat, borrow 0 = 0 ∧ borrow x.length = 0
      ∧ ∀ i, i < x.length →
          (digit x i < digit y i + borrow i → borrow (i + 1) = 1
            ∧ digit (subChain x y false) i + digit y i + borrow i = digit x i + 10)
          ∧ (digit y i + borrow i ≤ digit x i → borrow (i + 1) = 0
            ∧ digit (subChain x y false) i + digit y i + borrow i = digit x i))
    ∧ subMag x y = strip (subChain x y false)
    ∧ mag (subMag x y) = mag x - mag y

/-- R131: the digit-product array fills a buffer of exactly `x.len + y.len` digits with the exact
product. -/
def Obligations.MultiplierFillsTheBuffer : Prop :=
  ∀ x y : List Digit,
    (mulMag x y).length = x.length + y.length ∧ mag (mulMag x y) = mag x * mag y

/-- R141: the restoring divider of a canonical dividend by a canonical non-zero divisor: one quotient
digit per dividend digit, the exact quotient and a canonical remainder below the divisor. -/
def Obligations.RestoringDividerDivides : Prop :=
  ∀ a b : BigInt, a.canonical = true → b.canonical = true → mag b.digits ≠ 0 →
    (divLoop a.digits b.digits).1.length = a.digits.length
    ∧ mag (divMag a.digits b.digits).1 = mag a.digits / mag b.digits
    ∧ mag (divMag a.digits b.digits).2 = mag a.digits % mag b.digits
    ∧ strip (divMag a.digits b.digits).2 = (divMag a.digits b.digits).2

/-- R146: the laws of the divider. -/
def Obligations.DivisionLaws : Prop :=
  ∀ a b : BigInt, a.canonical = true → b.canonical = true → val b ≠ 0 →
    mag a.digits = mag (bigDiv a b).digits * mag b.digits + mag (bigRem a b).digits
    ∧ mag (bigRem a b).digits < mag b.digits
    ∧ (b.neg = false → val a = val (bigDiv a b) * val b + val (bigRem a b))
    ∧ (bigRem a b = big 0 ↔ mag b.digits ∣ mag a.digits)
    ∧ (0 ≤ val a → val b = 2 → val (bigDiv a b) = val a / 2)

/-- R117, R133: the laws of the adder/subtractor and the multiplier. -/
def Obligations.RingLaws : Prop :=
  ∀ a b c : BigInt, a.canonical = true → b.canonical = true → c.canonical = true →
    bigAdd a b = bigAdd b a
    ∧ bigAdd (bigAdd a b) c = bigAdd a (bigAdd b c)
    ∧ bigAdd a (big 0) = a
    ∧ bigAdd a (bigNeg a) = big 0
    ∧ bigSub a b = bigAdd a (bigNeg b)
    ∧ bigSub a b = bigNeg (bigSub b a)
    ∧ bigMul a b = bigMul b a
    ∧ bigMul (bigMul a b) c = bigMul a (bigMul b c)
    ∧ bigMul a (big 1) = a
    ∧ bigMul a (big 0) = big 0
    ∧ bigMul a (bigAdd b c) = bigAdd (bigMul a b) (bigMul a c)

/-- R158: the laws of the non-negative reduction. -/
def Obligations.ReductionLaws : Prop :=
  ∀ a b m : BigInt, a.canonical = true → b.canonical = true → m.canonical = true → 0 < val m →
    0 ≤ val (emod a m) ∧ val (emod a m) < val m
    ∧ emod (emod a m) m = emod a m
    ∧ emod (bigMul a b) m = emod (bigMul (emod a m) (emod b m)) m
    ∧ ∀ k : Int, emod (bigAdd a (big (k * val m))) m = emod a m

/-! ### Runs -/

/-- R50, R223: a run of a sequence of words ends in a next state whatever the words are, with exactly one
response per word, in the order of the words, behind those already there: a run of `us ++ vs` is the run
of `vs` from the state the run of `us` leaves, and the responses of `us` come first. Steps of the block
alone that drain the same words from the command channel end in the same state. That a run (`runWords`)
puts its words in front of the queue, and so leaves the queue and the host's actions as they were, is the
model's choice (log entry 4). -/
def Obligations.RunAnswersEveryWordInOrder : Prop :=
  ∀ (ws : List Word) (s : State), ∃ (t : State) (rs : List Word),
    runWords ws s = .next t ∧ t.resps = s.resps ++ rs ∧ rs.length = ws.length
      ∧ t.cmds = s.cmds ∧ t.host = s.host ∧ t.cfg = s.cfg
      ∧ (∀ us vs : List Word, ws = us ++ vs → ∃ u : State,
          runWords us s = .next u ∧ u.resps = s.resps ++ rs.take us.length
            ∧ runWords vs u = .next t)
      ∧ (s.host = [] → runSteps ws.length { s with cmds := ws ++ s.cmds } = .next t)
end

