-- ==== Sys2Proof/Laws/State.lean ====
section
/-! SUPPORT. One lemma per field per state update, and the algebra of the register file: a read after a
write gives the value written, and a write leaves every other register alone. -/

namespace Sys2Proof.Machine

/-! ### Writing a register -/

@[simp] theorem setReg_cfg (s : State) (r : RegId) (v : RegState) : (s.setReg r v).cfg = s.cfg := rfl
@[simp] theorem setReg_mode (s : State) (r : RegId) (v : RegState) :
    (s.setReg r v).mode = s.mode := rfl
@[simp] theorem setReg_ecode (s : State) (r : RegId) (v : RegState) :
    (s.setReg r v).ecode = s.ecode := rfl
@[simp] theorem setReg_ecmd (s : State) (r : RegId) (v : RegState) :
    (s.setReg r v).ecmd = s.ecmd := rfl
@[simp] theorem setReg_cmds (s : State) (r : RegId) (v : RegState) :
    (s.setReg r v).cmds = s.cmds := rfl
@[simp] theorem setReg_resps (s : State) (r : RegId) (v : RegState) :
    (s.setReg r v).resps = s.resps := rfl
@[simp] theorem setReg_host (s : State) (r : RegId) (v : RegState) :
    (s.setReg r v).host = s.host := rfl

theorem reg_setReg (s : State) (r q : RegId) (v : RegState) :
    (s.setReg r v).reg q = if r = q then v else s.reg q := by
  simp only [State.setReg, State.reg, Vector.getElem_set, Fin.ext_iff]

@[simp] theorem reg_setReg_self (s : State) (r : RegId) (v : RegState) :
    (s.setReg r v).reg r = v := by simp [reg_setReg]

theorem reg_setReg_ne (s : State) {r q : RegId} (v : RegState) (h : q ≠ r) :
    (s.setReg r v).reg q = s.reg q := by simp [reg_setReg, Ne.symm h]

/-- Two states are equal when all registers read alike and all other fields agree. -/
theorem State.ext_reg {s t : State} (hcfg : s.cfg = t.cfg) (hreg : ∀ r : RegId, s.reg r = t.reg r)
    (hmode : s.mode = t.mode) (hecode : s.ecode = t.ecode) (hecmd : s.ecmd = t.ecmd)
    (hcmds : s.cmds = t.cmds) (hresps : s.resps = t.resps) (hhost : s.host = t.host) : s = t := by
  obtain ⟨c, regs, m, ec, ew, cs, rs, hs⟩ := s
  obtain ⟨c', regs', m', ec', ew', cs', rs', hs'⟩ := t
  have hregs : regs = regs' := Vector.ext fun i hi => hreg ⟨i, hi⟩
  simp_all

/-! ### Producing a response -/

@[simp] theorem respond_cfg (w : Word) (s : State) : (respond w s).cfg = s.cfg := rfl
@[simp] theorem respond_regs (w : Word) (s : State) : (respond w s).regs = s.regs := rfl
@[simp] theorem respond_reg (w : Word) (s : State) (r : RegId) :
    (respond w s).reg r = s.reg r := rfl
@[simp] theorem respond_mode (w : Word) (s : State) : (respond w s).mode = s.mode := rfl
@[simp] theorem respond_ecode (w : Word) (s : State) : (respond w s).ecode = s.ecode := rfl
@[simp] theorem respond_ecmd (w : Word) (s : State) : (respond w s).ecmd = s.ecmd := rfl
@[simp] theorem respond_cmds (w : Word) (s : State) : (respond w s).cmds = s.cmds := rfl
@[simp] theorem respond_resps (w : Word) (s : State) :
    (respond w s).resps = s.resps ++ [w] := rfl
@[simp] theorem respond_host (w : Word) (s : State) : (respond w s).host = s.host := rfl

/-! ### Halt entry and raising a status -/

theorem haltEntry_ready {s : State} {st : Status} (w : Word) (hs : s.mode = .ready)
    (hst : st ≠ .halted) :
    haltEntry st w s = { s with mode := .halted, ecode := st.code, ecmd := w } := by
  simp [haltEntry, hs, hst]

theorem haltEntry_halted {s : State} (st : Status) (w : Word) (hs : s.mode = .halted) :
    haltEntry st w s = s := by simp [haltEntry, hs]

@[simp] theorem haltEntry_cfg (st : Status) (w : Word) (s : State) :
    (haltEntry st w s).cfg = s.cfg := by unfold haltEntry; split <;> rfl
@[simp] theorem haltEntry_regs (st : Status) (w : Word) (s : State) :
    (haltEntry st w s).regs = s.regs := by unfold haltEntry; split <;> rfl
@[simp] theorem haltEntry_reg (st : Status) (w : Word) (s : State) (r : RegId) :
    (haltEntry st w s).reg r = s.reg r := by simp [State.reg]
@[simp] theorem haltEntry_cmds (st : Status) (w : Word) (s : State) :
    (haltEntry st w s).cmds = s.cmds := by unfold haltEntry; split <;> rfl
@[simp] theorem haltEntry_resps (st : Status) (w : Word) (s : State) :
    (haltEntry st w s).resps = s.resps := by unfold haltEntry; split <;> rfl
@[simp] theorem haltEntry_host (st : Status) (w : Word) (s : State) :
    (haltEntry st w s).host = s.host := by unfold haltEntry; split <;> rfl

@[simp] theorem raiseStatus_cfg (st : Status) (w : Word) (s : State) :
    (raiseStatus st w s).cfg = s.cfg := by simp [raiseStatus]
@[simp] theorem raiseStatus_regs (st : Status) (w : Word) (s : State) :
    (raiseStatus st w s).regs = s.regs := by simp [raiseStatus]
@[simp] theorem raiseStatus_reg (st : Status) (w : Word) (s : State) (r : RegId) :
    (raiseStatus st w s).reg r = s.reg r := by simp [raiseStatus]
@[simp] theorem raiseStatus_cmds (st : Status) (w : Word) (s : State) :
    (raiseStatus st w s).cmds = s.cmds := by simp [raiseStatus]
@[simp] theorem raiseStatus_resps (st : Status) (w : Word) (s : State) :
    (raiseStatus st w s).resps = s.resps ++ [errResponse st] := by simp [raiseStatus]
@[simp] theorem raiseStatus_host (st : Status) (w : Word) (s : State) :
    (raiseStatus st w s).host = s.host := by simp [raiseStatus]

theorem raiseStatus_ready {s : State} {st : Status} (w : Word) (hs : s.mode = .ready)
    (hst : st ≠ .halted) :
    raiseStatus st w s =
      { s with mode := .halted, ecode := st.code, ecmd := w,
               resps := s.resps ++ [errResponse st] } := by
  simp [raiseStatus, haltEntry_ready w hs hst, respond]

theorem raiseStatus_halted {s : State} (st : Status) (w : Word) (hs : s.mode = .halted) :
    raiseStatus st w s = { s with resps := s.resps ++ [errResponse st] } := by
  simp [raiseStatus, haltEntry_halted st w hs, respond]

/-- The halt entry touches no register, so it commutes with a register write. -/
theorem haltEntry_setReg (st : Status) (w : Word) (s : State) (r : RegId) (v : RegState) :
    haltEntry st w (s.setReg r v) = (haltEntry st w s).setReg r v := by
  by_cases h : s.mode = .ready ∧ st ≠ .halted
  · rw [haltEntry, if_pos (show (s.setReg r v).mode = .ready ∧ st ≠ .halted from h), haltEntry,
      if_pos h]
    rfl
  · rw [haltEntry, if_neg (show ¬((s.setReg r v).mode = .ready ∧ st ≠ .halted) from h), haltEntry,
      if_neg h]

theorem raiseStatus_setReg (st : Status) (w : Word) (s : State) (r : RegId) (v : RegState) :
    raiseStatus st w (s.setReg r v) = (raiseStatus st w s).setReg r v := by
  simp only [raiseStatus, haltEntry_setReg]
  rfl

/-! ### Clearing the error record -/

@[simp] theorem clearError_cfg (s : State) : (clearError s).cfg = s.cfg := rfl
@[simp] theorem clearError_regs (s : State) : (clearError s).regs = s.regs := rfl
@[simp] theorem clearError_reg (s : State) (r : RegId) : (clearError s).reg r = s.reg r := rfl
@[simp] theorem clearError_mode (s : State) : (clearError s).mode = .ready := rfl
@[simp] theorem clearError_ecode (s : State) : (clearError s).ecode = 0 := rfl
@[simp] theorem clearError_ecmd (s : State) : (clearError s).ecmd = 0 := rfl
@[simp] theorem clearError_cmds (s : State) : (clearError s).cmds = s.cmds := rfl
@[simp] theorem clearError_resps (s : State) : (clearError s).resps = s.resps := rfl
@[simp] theorem clearError_host (s : State) : (clearError s).host = s.host := rfl

/-! ### Reset -/

@[simp] theorem resetOf_reg (c : Config) (r : RegId) :
    (State.resetOf c).reg r = .invalid := by simp [State.resetOf, State.reg]

/-! ### The host's actions and the turn -/

@[simp] theorem hostAct_cfg (e : HostEvent) (s : State) : (hostAct e s).cfg = s.cfg := by
  cases e <;> rfl
@[simp] theorem hostAct_host (e : HostEvent) (s : State) : (hostAct e s).host = s.host := by
  cases e <;> rfl

theorem nextTurn_command {s : State} {w : Word} {ws : List Word} (hh : s.host = [])
    (hc : s.cmds = w :: ws) : nextTurn s = .command w { s with cmds := ws } := by
  simp [nextTurn, hh, blockTurn, hc]

theorem nextTurn_wait_command {s : State} {w : Word} {ws : List Word} {es : List HostEvent}
    (hh : s.host = .wait :: es) (hc : s.cmds = w :: ws) :
    nextTurn s = .command w { s with cmds := ws, host := es } := by
  simp [nextTurn, hh, blockTurn, hc]

/-- After `offerNext` it is the block's turn, on that word and the state as it was. -/
@[simp] theorem nextTurn_offerNext (w : Word) (s : State) :
    nextTurn (offerNext w s) = .command w s := rfl

end Sys2Proof.Machine
end

