-- ==== Sys2Proof/Laws/Encoding.lean ====
section
/-! SUPPORT. The fields of a composed command word, what a row's mask says of them, and the register
field: the facts a proof about the decoder or the encoder rests on. -/

namespace Sys2Proof

/-! ### A word is its six fields -/

theorem toNat_append_eq_add {m n : Nat} (x : BitVec m) (y : BitVec n) :
    (x ++ y).toNat = x.toNat * 2 ^ n + y.toNat := by
  rw [BitVec.toNat_append, ← Nat.shiftLeft_add_eq_or_of_lt y.isLt, Nat.shiftLeft_eq]

theorem toNat_wordOfFields (op : Byte) (rd ra rb rc : Nibble) (i8 : Byte) :
    (wordOfFields op rd ra rb rc i8).toNat =
      op.toNat * 2 ^ 24 + rd.toNat * 2 ^ 20 + ra.toNat * 2 ^ 16 + rb.toNat * 2 ^ 12
        + rc.toNat * 2 ^ 8 + i8.toNat := by
  unfold wordOfFields
  repeat rw [toNat_append_eq_add]
  omega

theorem toNat_wordOfImm16 (op : Byte) (rd ra : Nibble) (i16 : Half) :
    (wordOfImm16 op rd ra i16).toNat =
      op.toNat * 2 ^ 24 + rd.toNat * 2 ^ 20 + ra.toNat * 2 ^ 16 + i16.toNat := by
  unfold wordOfImm16
  repeat rw [toNat_append_eq_add]
  omega

/-- Every word is composed of its fields (30_encoding.md R56). -/
theorem eq_wordOfFields (w : Word) :
    w = wordOfFields (w.extractLsb' 24 8) (w.extractLsb' 20 4) (w.extractLsb' 16 4)
      (w.extractLsb' 12 4) (w.extractLsb' 8 4) (w.extractLsb' 0 8) := by
  apply BitVec.eq_of_toNat_eq
  rw [toNat_wordOfFields]
  simp only [BitVec.extractLsb'_toNat, Nat.shiftRight_eq_div_pow]
  have := w.isLt
  omega

/-- Every word is composed of its opcode, two register fields and `i16` (R56). -/
theorem eq_wordOfImm16 (w : Word) :
    w = wordOfImm16 (w.extractLsb' 24 8) (w.extractLsb' 20 4) (w.extractLsb' 16 4)
      (w.extractLsb' 0 16) := by
  apply BitVec.eq_of_toNat_eq
  rw [toNat_wordOfImm16]
  simp only [BitVec.extractLsb'_toNat, Nat.shiftRight_eq_div_pow]
  have := w.isLt
  omega

/-- The `i16` format overlays `rb`, `rc` and `i8` (R56). -/
theorem wordOfImm16_eq_fields (op : Byte) (rd ra : Nibble) (i16 : Half) :
    wordOfImm16 op rd ra i16 =
      wordOfFields op rd ra (i16.extractLsb' 12 4) (i16.extractLsb' 8 4) (i16.extractLsb' 0 8) := by
  apply BitVec.eq_of_toNat_eq
  rw [toNat_wordOfImm16, toNat_wordOfFields]
  simp only [BitVec.extractLsb'_toNat, Nat.shiftRight_eq_div_pow]
  have := i16.isLt
  omega

section Fields

variable (op : Byte) (rd ra rb rc : Nibble) (i8 : Byte) (i16 : Half)

theorem extract_wordOfFields :
    (wordOfFields op rd ra rb rc i8).extractLsb' 24 8 = op
      ∧ (wordOfFields op rd ra rb rc i8).extractLsb' 20 4 = rd
      ∧ (wordOfFields op rd ra rb rc i8).extractLsb' 16 4 = ra
      ∧ (wordOfFields op rd ra rb rc i8).extractLsb' 12 4 = rb
      ∧ (wordOfFields op rd ra rb rc i8).extractLsb' 8 4 = rc
      ∧ (wordOfFields op rd ra rb rc i8).extractLsb' 0 8 = i8 := by
  have := op.isLt
  have := rd.isLt
  have := ra.isLt
  have := rb.isLt
  have := rc.isLt
  have := i8.isLt
  refine ⟨?_, ?_, ?_, ?_, ?_, ?_⟩ <;>
    (apply BitVec.eq_of_toNat_eq
     simp only [BitVec.extractLsb'_toNat, Nat.shiftRight_eq_div_pow, toNat_wordOfFields]
     omega)

@[simp] theorem opField_wordOfFields : opField (wordOfFields op rd ra rb rc i8) = op :=
  (extract_wordOfFields op rd ra rb rc i8).1

@[simp] theorem i8Field_wordOfFields : i8Field (wordOfFields op rd ra rb rc i8) = i8 :=
  (extract_wordOfFields op rd ra rb rc i8).2.2.2.2.2

@[simp] theorem opField_wordOfImm16 : opField (wordOfImm16 op rd ra i16) = op := by
  rw [wordOfImm16_eq_fields, opField_wordOfFields]

@[simp] theorem i16Field_wordOfImm16 : i16Field (wordOfImm16 op rd ra i16) = i16 := by
  apply BitVec.eq_of_toNat_eq
  simp only [i16Field, BitVec.extractLsb'_toNat, Nat.shiftRight_eq_div_pow, toNat_wordOfImm16]
  have := i16.isLt
  omega

theorem val_regField (w : Word) (lo : Nat) :
    (regField w lo).val = w.toNat / 2 ^ lo % 8 := by
  simp [regField, BitVec.extractLsb'_toNat, Nat.shiftRight_eq_div_pow]

theorem val_regFields_wordOfFields :
    (rdField (wordOfFields op rd ra rb rc i8)).val = rd.toNat % 8
      ∧ (raField (wordOfFields op rd ra rb rc i8)).val = ra.toNat % 8
      ∧ (rbField (wordOfFields op rd ra rb rc i8)).val = rb.toNat % 8
      ∧ (rcField (wordOfFields op rd ra rb rc i8)).val = rc.toNat % 8 := by
  have := rd.isLt
  have := ra.isLt
  have := rb.isLt
  have := rc.isLt
  have := i8.isLt
  refine ⟨?_, ?_, ?_, ?_⟩ <;>
    (simp only [rdField, raField, rbField, rcField, val_regField, toNat_wordOfFields]
     omega)

end Fields

/-! ### The register field (R56) -/

theorem toNat_regBits (r : RegId) : (regBits r).toNat = r.val := by
  have := r.isLt
  simp only [regBits, BitVec.toNat_ofNat]
  omega

@[simp] theorem regBits_and_8 (r : RegId) : regBits r &&& 8#4 = 0#4 := by
  revert r; decide

/-- A field whose top bit is 0 is the field of the register number in its low three bits. -/
theorem regBits_of_topBit {x : Nibble} {r : RegId} (h : x &&& 8#4 = 0#4) (hr : r.val = x.toNat % 8) :
    regBits r = x := by
  have key : ∀ x : Nibble, x &&& 8#4 = 0#4 → x.toNat % 8 = x.toNat := by decide
  apply BitVec.eq_of_toNat_eq
  rw [toNat_regBits, hr, key x h]

section RegFields

variable (op : Byte) (rd ra rb rc : RegId) (xd xa xb xc : Nibble) (i8 : Byte) (i16 : Half)

@[simp] theorem rdField_wordOfFields :
    rdField (wordOfFields op (regBits rd) xa xb xc i8) = rd := by
  apply Fin.ext
  rw [(val_regFields_wordOfFields _ _ _ _ _ _).1, toNat_regBits, Nat.mod_eq_of_lt rd.isLt]

@[simp] theorem raField_wordOfFields :
    raField (wordOfFields op xd (regBits ra) xb xc i8) = ra := by
  apply Fin.ext
  rw [(val_regFields_wordOfFields _ _ _ _ _ _).2.1, toNat_regBits, Nat.mod_eq_of_lt ra.isLt]

@[simp] theorem rbField_wordOfFields :
    rbField (wordOfFields op xd xa (regBits rb) xc i8) = rb := by
  apply Fin.ext
  rw [(val_regFields_wordOfFields _ _ _ _ _ _).2.2.1, toNat_regBits, Nat.mod_eq_of_lt rb.isLt]

@[simp] theorem rcField_wordOfFields :
    rcField (wordOfFields op xd xa xb (regBits rc) i8) = rc := by
  apply Fin.ext
  rw [(val_regFields_wordOfFields _ _ _ _ _ _).2.2.2, toNat_regBits, Nat.mod_eq_of_lt rc.isLt]

@[simp] theorem rdField_wordOfImm16 : rdField (wordOfImm16 op (regBits rd) xa i16) = rd := by
  rw [wordOfImm16_eq_fields, rdField_wordOfFields]

@[simp] theorem raField_wordOfImm16 : raField (wordOfImm16 op xd (regBits ra) i16) = ra := by
  rw [wordOfImm16_eq_fields, raField_wordOfFields]

end RegFields

/-! ### What a mask says of the fields (R62) -/

theorem wordOfFields_and (op op' : Byte) (rd rd' ra ra' rb rb' rc rc' : Nibble) (i8 i8' : Byte) :
    wordOfFields op rd ra rb rc i8 &&& wordOfFields op' rd' ra' rb' rc' i8' =
      wordOfFields (op &&& op') (rd &&& rd') (ra &&& ra') (rb &&& rb') (rc &&& rc') (i8 &&& i8') := by
  unfold wordOfFields
  apply BitVec.eq_of_getLsbD_eq
  intro i _
  simp only [BitVec.getLsbD_and, BitVec.getLsbD_append]
  repeat' split
  all_goals rfl

theorem wordOfFields_inj {op op' : Byte} {rd rd' ra ra' rb rb' rc rc' : Nibble} {i8 i8' : Byte} :
    wordOfFields op rd ra rb rc i8 = wordOfFields op' rd' ra' rb' rc' i8' ↔
      op = op' ∧ rd = rd' ∧ ra = ra' ∧ rb = rb' ∧ rc = rc' ∧ i8 = i8' := by
  constructor
  · intro h
    have e := extract_wordOfFields op rd ra rb rc i8
    have e' := extract_wordOfFields op' rd' ra' rb' rc' i8'
    rw [h] at e
    exact ⟨e.1.symm.trans e'.1, e.2.1.symm.trans e'.2.1, e.2.2.1.symm.trans e'.2.2.1,
      e.2.2.2.1.symm.trans e'.2.2.2.1, e.2.2.2.2.1.symm.trans e'.2.2.2.2.1,
      e.2.2.2.2.2.symm.trans e'.2.2.2.2.2⟩
  · rintro ⟨rfl, rfl, rfl, rfl, rfl, rfl⟩
    rfl

/-- A row selects a composed word exactly when each masked field is the pattern's. -/
theorem wordOfFields_masked (op : Byte) (rd ra rb rc : Nibble) (i8 : Byte) (m p : Word) :
    wordOfFields op rd ra rb rc i8 &&& m = p ↔
      op &&& m.extractLsb' 24 8 = p.extractLsb' 24 8
        ∧ rd &&& m.extractLsb' 20 4 = p.extractLsb' 20 4
        ∧ ra &&& m.extractLsb' 16 4 = p.extractLsb' 16 4
        ∧ rb &&& m.extractLsb' 12 4 = p.extractLsb' 12 4
        ∧ rc &&& m.extractLsb' 8 4 = p.extractLsb' 8 4
        ∧ i8 &&& m.extractLsb' 0 8 = p.extractLsb' 0 8 := by
  rw [← wordOfFields_inj, ← wordOfFields_and, ← eq_wordOfFields, ← eq_wordOfFields]

/-- Every row compares the whole opcode byte, so the row that selects a word has its opcode. -/
theorem opField_of_selects {r : Row} {w : Word} (hr : r ∈ opcodeRows) (h : r.selects w = true) :
    opField w = opField r.pattern := by
  have hmask : ∀ r ∈ opcodeRows, opField r.mask = 0xFF#8 := by
    simp [opcodeRows, systemRows, moveRows, arithRows, modularRows, opField]
  have h' : w &&& r.mask = r.pattern := by simpa [Row.selects] using h
  have h1 : opField (w &&& r.mask) = opField w &&& opField r.mask := by
    apply BitVec.eq_of_getLsbD_eq
    intro i hi
    simp [opField, hi]
  rw [h', hmask r hr] at h1
  have h2 : ∀ x : Byte, x &&& 0xFF#8 = x := by decide
  rw [h1, h2]

theorem selects_iff (r : Row) (w : Word) : r.selects w = true ↔ w &&& r.mask = r.pattern := by
  simp [Row.selects]

theorem opcodes_nodup : (opcodeRows.map fun r => opField r.pattern).Nodup := by decide

/-- The masks and matches are pairwise exclusive (30_encoding.md R69). -/
theorem row_unique {r r' : Row} {w : Word} (hr : r ∈ opcodeRows) (hr' : r' ∈ opcodeRows)
    (h : r.selects w = true) (h' : r'.selects w = true) : r = r' :=
  List.inj_on_of_nodup_map opcodes_nodup hr hr'
    ((opField_of_selects hr h).symm.trans (opField_of_selects hr' h'))

/-- What `decode` answers on a word that a row selects. -/
theorem decode_of_selects {r : Row} {w : Word} (hr : r ∈ opcodeRows) (h : r.selects w = true) :
    decode w = if (r.build w).wf then .instr (r.build w) else .illegal .sameDestination := by
  cases hf : opcodeRows.find? (fun r => r.selects w) with
  | none => exact absurd h (by simpa using List.find?_eq_none.mp hf r hr)
  | some r' =>
    have h' : r'.selects w = true := by simpa using List.find?_some hf
    have e : r' = r := row_unique (List.mem_of_find?_eq_some hf) hr h' h
    subst e
    simp only [decode, hf]

/-- What `decode` answers on a word that no row selects. -/
theorem decode_of_not_selects {w : Word} (h : ∀ r ∈ opcodeRows, r.selects w = false) :
    decode w = .illegal (whyIllegal w) := by
  have hf : opcodeRows.find? (fun r => r.selects w) = none :=
    List.find?_eq_none.mpr fun r hr => by simp [h r hr]
  simp only [decode, hf]

/-- The sign bit of BEGIN (R58). -/
theorem sign_masked (b : Bool) : BitVec.ofNat 8 b.toNat &&& 254#8 = 0#8 := by cases b <;> rfl

theorem signBit_wordOfFields (op : Byte) (rd ra rb rc : Nibble) (b : Bool) :
    (wordOfFields op rd ra rb rc (BitVec.ofNat 8 b.toNat)).getLsbD 0 = b := by
  unfold wordOfFields
  rw [BitVec.getLsbD_append]
  cases b <;> rfl

end Sys2Proof
end

