-- ==== Sys2Proof/Laws/Operands.lean ====
section
/-! SUPPORT. One lemma per operand operation and per way a command ends: what it answers when its check
passes, and which status it raises when it does not. -/

namespace Sys2Proof.Machine

/-! ### The checks -/

@[simp] theorem whenReady_ready {s : State} {c : Completion} (h : s.mode = .ready) :
    whenReady s c = c := by simp [whenReady, h]

@[simp] theorem whenReady_halted {s : State} {c : Completion} (h : s.mode = .halted) :
    whenReady s c = .err .halted := by simp [whenReady, h]

theorem withSrc_valid {s : State} {r : RegId} {v : BigInt} {k : BigInt → Completion}
    (h : s.reg r = .valid v) : withSrc s r k = k v := by simp [withSrc, h]

theorem withSrc_not_valid {s : State} {r : RegId} {k : BigInt → Completion}
    (h : (s.reg r).isValid = false) : withSrc s r k = .err .reg := by
  unfold withSrc
  cases hr : s.reg r <;> simp_all [RegState.isValid]

theorem withOpen_opened {s : State} {r : RegId} {b : Bool} {ds : List Digit}
    {k : Bool → List Digit → Completion} (h : s.reg r = .opened b ds) :
    withOpen s r k = k b ds := by simp [withOpen, h]

theorem withOpen_not_opened {s : State} {r : RegId} {k : Bool → List Digit → Completion}
    (h : (s.reg r).isOpen = false) : withOpen s r k = .err .reg := by
  unfold withOpen
  cases hr : s.reg r <;> simp_all [RegState.isOpen]

/-- A register is Valid exactly when it holds a value. -/
theorem isValid_iff {x : RegState} : x.isValid = true ↔ ∃ v, x = .valid v := by
  cases x <;> simp [RegState.isValid]

theorem isOpen_iff {x : RegState} : x.isOpen = true ↔ ∃ b ds, x = .opened b ds := by
  cases x <;> simp [RegState.isOpen]

theorem writeChecked_fits {s : State} {rd : RegId} {v : BigInt} (h : v.len ≤ s.cfg.maxd) :
    writeChecked s rd v = writeResult s rd v := by
  simp [writeChecked, Nat.not_lt.mpr h]

theorem writeChecked_overflow {s : State} {rd : RegId} {v : BigInt} (h : s.cfg.maxd < v.len) :
    writeChecked s rd v = .err .overflow := by simp [writeChecked, h]

theorem withModulus_zero {m : BigInt} {k : Completion} (h : mag m.digits = 0) :
    withModulus m k = .err .divzero := by simp [withModulus, h]

theorem withModulus_negative {m : BigInt} {k : Completion} (h : mag m.digits ≠ 0)
    (hn : m.neg = true) : withModulus m k = .err .domain := by simp [withModulus, h, hn]

theorem withModulus_positive {m : BigInt} {k : Completion} (h : mag m.digits ≠ 0)
    (hn : m.neg = false) : withModulus m k = k := by simp [withModulus, h, hn]

theorem withDivisor_zero {b : BigInt} {k : Completion} (h : mag b.digits = 0) :
    withDivisor b k = .err .divzero := by simp [withDivisor, h]

theorem withDivisor_nonzero {b : BigInt} {k : Completion} (h : mag b.digits ≠ 0) :
    withDivisor b k = k := by simp [withDivisor, h]

/-! ### How a command ends -/

@[simp] theorem complete_ok (w : Word) (s t : State) (f : Flags) (d : Half) :
    complete w s (.ok t f d) = .next (respond (okResponse f d) t) := rfl

@[simp] theorem complete_err (w : Word) (s : State) (st : Status) :
    complete w s (.err st) = .next (raiseStatus st w s) := rfl

/-- Every command ends in a next state (70_reset_and_hazards.md R222). -/
theorem complete_next (w : Word) (s : State) (c : Completion) : ∃ t, complete w s c = .next t := by
  cases c <;> simp

/-! ### The status registers -/

theorem statusRegister_none_iff (s : State) (idx : Byte) :
    statusRegister s idx = none ↔ 9 < idx.toNat := by
  unfold statusRegister
  split <;> simp_all
  omega

end Sys2Proof.Machine
end

