-- ==== Sys2Proof/Laws/Exec.lean ====
section
/-! SUPPORT. The inversion lemma of exec: a command either raises one status on the state as it was, or
it completes with status OK and its effect is within its destinations. Frames and invariants follow
from it without unfolding a meaning. -/

namespace Sys2Proof.Machine

/-- All that a command completing with status OK can have done to the state before its response. -/
structure Effect (i : Instr) (s t : State) : Prop where
  cfg : t.cfg = s.cfg
  cmds : t.cmds = s.cmds
  resps : t.resps = s.resps
  host : t.host = s.host
  others : ∀ r, r ∉ destinations i → t.reg r = s.reg r
  written : ∀ r, r ∈ destinations i → t.reg r ≠ .invalid
  record : i ≠ .clre → t.mode = s.mode ∧ t.ecode = s.ecode ∧ t.ecmd = s.ecmd
  cleared : i = .clre → t = clearError s

/-- How the command `i` may end in the state `s`. -/
def Ends (i : Instr) (s : State) : Completion → Prop
  | .ok t _ _ => Effect i s t ∧ (s.mode = .halted → i = .clre ∨ ∃ idx, i = .rdsr idx)
  | .err st => (s.mode = .ready → st ≠ .halted)
      ∧ (s.mode = .halted → st = .halted ∨ (st = .illegal ∧ ∃ idx, i = .rdsr idx))

theorem ends_same {i : Instr} {s : State} (hd : destinations i = []) (hc : i ≠ .clre) :
    Effect i s s :=
  ⟨rfl, rfl, rfl, rfl, fun _ _ => rfl, by simp [hd], fun _ => ⟨rfl, rfl, rfl⟩,
    fun h => absurd h hc⟩

theorem effect_setReg {i : Instr} {s : State} {rd : RegId} {v : RegState}
    (hd : destinations i = [rd]) (hv : v ≠ .invalid) (hc : i ≠ .clre) :
    Effect i s (s.setReg rd v) where
  cfg := rfl
  cmds := rfl
  resps := rfl
  host := rfl
  others r hr := reg_setReg_ne s v (by simpa [hd] using hr)
  written r hr := by
    have : r = rd := by simpa [hd] using hr
    simpa [this] using hv
  record _ := ⟨rfl, rfl, rfl⟩
  cleared h := absurd h hc

theorem ends_whenReady {i : Instr} {s : State} {c : Completion}
    (h : s.mode = .ready → Ends i s c) : Ends i s (whenReady s c) := by
  cases hm : s.mode with
  | ready => simpa [hm] using h hm
  | halted => simp [hm, Ends]

/-- Raising a status other than ERR_HALTED ends a command that runs in Ready. -/
theorem ends_err {i : Instr} {s : State} {st : Status} (hm : s.mode = .ready)
    (hst : st ≠ .halted) : Ends i s (.err st) := by simp [Ends, hm, hst]

theorem ends_ok {i : Instr} {s t : State} {f : Flags} {d : Half} (hm : s.mode = .ready)
    (h : Effect i s t) : Ends i s (.ok t f d) := by simp [Ends, hm, h]

theorem ends_withSrc {i : Instr} {s : State} {r : RegId} {k : BigInt → Completion}
    (hm : s.mode = .ready) (h : ∀ v, s.reg r = .valid v → Ends i s (k v)) :
    Ends i s (withSrc s r k) := by
  unfold withSrc
  split
  · exact h _ ‹_›
  all_goals exact ends_err hm (by decide)

theorem ends_withOpen {i : Instr} {s : State} {r : RegId} {k : Bool → List Digit → Completion}
    (hm : s.mode = .ready) (h : ∀ b ds, s.reg r = .opened b ds → Ends i s (k b ds)) :
    Ends i s (withOpen s r k) := by
  unfold withOpen
  split
  · exact h _ _ ‹_›
  all_goals exact ends_err hm (by decide)

theorem ends_writeResult {i : Instr} {s : State} {rd : RegId} {v : BigInt} (hm : s.mode = .ready)
    (hd : destinations i = [rd]) (hc : i ≠ .clre) : Ends i s (writeResult s rd v) :=
  ends_ok hm (effect_setReg hd (by simp) hc)

theorem ends_writeChecked {i : Instr} {s : State} {rd : RegId} {v : BigInt} (hm : s.mode = .ready)
    (hd : destinations i = [rd]) (hc : i ≠ .clre) : Ends i s (writeChecked s rd v) := by
  unfold writeChecked
  split
  · exact ends_err hm (by decide)
  · exact ends_writeResult hm hd hc

theorem ends_withModulus {i : Instr} {s : State} {m : BigInt} {k : Completion}
    (hm : s.mode = .ready) (h : Ends i s k) : Ends i s (withModulus m k) := by
  unfold withModulus
  repeat' split
  · exact ends_err hm (by decide)
  · exact ends_err hm (by decide)
  · exact h

theorem ends_withDivisor {i : Instr} {s : State} {b : BigInt} {k : Completion}
    (hm : s.mode = .ready) (h : Ends i s k) : Ends i s (withDivisor b k) := by
  unfold withDivisor
  split
  · exact ends_err hm (by decide)
  · exact h

/-- Every command ends as `Ends` says. -/
theorem exec_ends (i : Instr) (s : State) :
    ∃ c, exec i s = complete (encode i) s c ∧ Ends i s c := by
  cases i with
  | nop => exact ⟨_, rfl, ends_whenReady fun hm => ends_ok hm (ends_same rfl (by simp))⟩
  | clre =>
    exact ⟨.ok (clearError s) noFlags 0, rfl,
      ⟨rfl, rfl, rfl, rfl, fun _ _ => rfl, by simp [destinations], fun h => absurd rfl h,
        fun _ => rfl⟩, fun _ => .inl rfl⟩
  | rdsr idx =>
    refine ⟨_, rfl, ?_⟩
    cases statusRegister s idx with
    | some v => exact ⟨ends_same rfl (by simp), fun _ => .inr ⟨idx, rfl⟩⟩
    | none => exact ⟨fun _ => by simp, fun _ => .inr ⟨rfl, idx, rfl⟩⟩
  | beginNum rd sign =>
    exact ⟨_, rfl, ends_whenReady fun hm =>
      ends_ok hm (effect_setReg rfl (by simp) (by simp))⟩
  | pushd rd code =>
    refine ⟨_, rfl, ends_whenReady fun hm => ends_withOpen hm fun b ds _ => ?_⟩
    split
    · exact ends_err hm (by decide)
    · split
      · exact ends_err hm (by decide)
      · exact ends_ok hm (effect_setReg rfl (by simp) (by simp))
  | endNum rd =>
    refine ⟨_, rfl, ends_whenReady fun hm => ends_withOpen hm fun b ds _ => ?_⟩
    cases ds with
    | nil => exact ends_err hm (by decide)
    | cons d ds => exact ends_writeResult hm rfl (by simp)
  | seti rd imm => exact ⟨_, rfl, ends_whenReady fun hm => ends_writeChecked hm rfl (by simp)⟩
  | mov rd ra =>
    exact ⟨_, rfl, ends_whenReady fun hm => ends_withSrc hm fun a _ =>
      ends_writeResult hm rfl (by simp)⟩
  | neg rd ra =>
    exact ⟨_, rfl, ends_whenReady fun hm => ends_withSrc hm fun a _ =>
      ends_writeResult hm rfl (by simp)⟩
  | len ra =>
    exact ⟨_, rfl, ends_whenReady fun hm => ends_withSrc hm fun a _ =>
      ends_ok hm (ends_same rfl (by simp))⟩
  | getd ra index =>
    refine ⟨_, rfl, ends_whenReady fun hm => ends_withSrc hm fun a _ => ?_⟩
    split
    · exact ends_err hm (by decide)
    · exact ends_ok hm (ends_same rfl (by simp))
  | cmp ra rb =>
    exact ⟨_, rfl, ends_whenReady fun hm => ends_withSrc hm fun a _ => ends_withSrc hm fun b _ =>
      ends_ok hm (ends_same rfl (by simp))⟩
  | add rd ra rb =>
    exact ⟨_, rfl, ends_whenReady fun hm => ends_withSrc hm fun a _ => ends_withSrc hm fun b _ =>
      ends_writeChecked hm rfl (by simp)⟩
  | sub rd ra rb =>
    exact ⟨_, rfl, ends_whenReady fun hm => ends_withSrc hm fun a _ => ends_withSrc hm fun b _ =>
      ends_writeChecked hm rfl (by simp)⟩
  | mul rd ra rb =>
    exact ⟨_, rfl, ends_whenReady fun hm => ends_withSrc hm fun a _ => ends_withSrc hm fun b _ =>
      ends_writeChecked hm rfl (by simp)⟩
  | div rd ra rb =>
    exact ⟨_, rfl, ends_whenReady fun hm => ends_withSrc hm fun a _ => ends_withSrc hm fun b _ =>
      ends_withDivisor hm (ends_writeResult hm rfl (by simp))⟩
  | rem rd ra rb =>
    exact ⟨_, rfl, ends_whenReady fun hm => ends_withSrc hm fun a _ => ends_withSrc hm fun b _ =>
      ends_withDivisor hm (ends_writeResult hm rfl (by simp))⟩
  | divmod rd ra rb rc =>
    refine ⟨_, rfl, ends_whenReady fun hm => ?_⟩
    split
    · exact ends_err hm (by decide)
    · refine ends_withSrc hm fun a _ => ends_withSrc hm fun b _ => ends_withDivisor hm
        (ends_ok hm ⟨rfl, rfl, rfl, rfl, fun r hr => ?_, fun r hr => ?_, fun _ => ⟨rfl, rfl, rfl⟩,
          fun h => by simp at h⟩)
      · simp only [destinations, List.mem_cons, List.not_mem_nil, or_false, not_or] at hr
        rw [reg_setReg_ne _ _ hr.2, reg_setReg_ne _ _ hr.1]
      · simp only [reg_setReg]
        simp only [destinations, List.mem_cons, List.not_mem_nil, or_false] at hr
        rcases hr with rfl | rfl <;> (repeat' split) <;> simp_all
  | modn rd ra rc =>
    exact ⟨_, rfl, ends_whenReady fun hm => ends_withSrc hm fun a _ => ends_withSrc hm fun m _ =>
      ends_withModulus hm (ends_writeResult hm rfl (by simp))⟩
  | modmul rd ra rb rc =>
    exact ⟨_, rfl, ends_whenReady fun hm => ends_withSrc hm fun a _ => ends_withSrc hm fun b _ =>
      ends_withSrc hm fun m _ => ends_withModulus hm (ends_writeResult hm rfl (by simp))⟩
  | modexp rd ra rb rc =>
    exact ⟨_, rfl, ends_whenReady fun hm => ends_withSrc hm fun a _ => ends_withSrc hm fun b _ =>
      ends_withSrc hm fun m _ => ends_withModulus hm (ends_writeResult hm rfl (by simp))⟩
  | gcd rd ra rb =>
    exact ⟨_, rfl, ends_whenReady fun hm => ends_withSrc hm fun a _ => ends_withSrc hm fun b _ =>
      ends_writeResult hm rfl (by simp)⟩
  | modinv rd ra rc =>
    refine ⟨_, rfl, ends_whenReady fun hm => ends_withSrc hm fun a _ => ends_withSrc hm fun m _ =>
      ends_withModulus hm ?_⟩
    split
    · exact ends_writeResult hm rfl (by simp)
    · exact ends_err hm (by decide)

/-- CLRE completes in both modes: it raises no status (R81, R204). -/
theorem exec_clre (s : State) :
    exec .clre s = .next (respond (okResponse noFlags 0) (clearError s)) := rfl

/-- RDSR of a status register completes in both modes (R82). -/
theorem exec_rdsr {s : State} {idx : Byte} {v : Half} (h : statusRegister s idx = some v) :
    exec (.rdsr idx) s = .next (respond (okResponse noFlags v) s) := by
  simp [exec, execRdsr, h]

/-- RDSR of a reserved index raises ERR_ILLEGAL and no other status, in both modes (R31, R82). -/
theorem exec_rdsr_reserved {s : State} {idx : Byte} (h : statusRegister s idx = none) :
    exec (.rdsr idx) s = .next (raiseStatus .illegal (encode (.rdsr idx)) s) := by
  simp [exec, execRdsr, h]

/-- A command raises a status on the state as it was, or completes with its effect. -/
theorem exec_cases (i : Instr) (s : State) :
    (∃ st, exec i s = .next (raiseStatus st (encode i) s) ∧ Ends i s (.err st))
      ∨ (∃ t f d, exec i s = .next (respond (okResponse f d) t) ∧ Ends i s (.ok t f d)) := by
  obtain ⟨c, he, hc⟩ := exec_ends i s
  cases c with
  | ok t f d => exact .inr ⟨t, f, d, he, hc⟩
  | err st => exact .inl ⟨st, he, hc⟩

end Sys2Proof.Machine
end

