-- ==== Sys2Proof/Laws/Magnitude.lean ====
section
/-! SUPPORT. The value and the shape of digit lists: what `mag`, `strip` and `canon` do, and that `canon`
always gives a canonical BigInt (00_scope.md R12 to R14). -/

namespace Sys2Proof.Machine

/-! ### The value of a digit list -/

@[simp] theorem mag_nil : mag [] = 0 := rfl

@[simp] theorem mag_cons (d : Digit) (ds : List Digit) : mag (d :: ds) = d.val + 10 * mag ds := rfl

theorem mag_append (xs ys : List Digit) : mag (xs ++ ys) = mag xs + 10 ^ xs.length * mag ys := by
  induction xs with
  | nil => simp
  | cons x xs ih =>
    simp only [List.cons_append, mag_cons, ih, List.length_cons, pow_succ]
    ring

theorem mag_lt_pow (ds : List Digit) : mag ds < 10 ^ ds.length := by
  induction ds with
  | nil => simp
  | cons d ds ih =>
    have := d.isLt
    simp only [mag_cons, List.length_cons, pow_succ]
    omega

@[simp] theorem mag_replicate_zero (n : Nat) : mag (List.replicate n 0) = 0 := by
  induction n with
  | zero => rfl
  | succ n ih => simp [List.replicate_succ, ih]

/-! ### Stripping most significant zeros -/

@[simp] theorem mag_dropTopZeros (ds : List Digit) : mag (dropTopZeros ds) = mag ds := by
  induction ds with
  | nil => rfl
  | cons d ds ih =>
    unfold dropTopZeros
    split
    · rename_i h
      rw [h] at ih
      split
      · simp_all [← ih]
      · simp [← ih]
    · rename_i e es h
      rw [h] at ih
      simp [← ih]

@[simp] theorem mag_strip (ds : List Digit) : mag (strip ds) = mag ds := by
  unfold strip
  split
  · rename_i h
    simpa [h] using mag_dropTopZeros ds
  · rename_i e es h
    rw [← h, mag_dropTopZeros]

theorem strip_ne_nil (ds : List Digit) : strip ds ≠ [] := by
  unfold strip
  split <;> simp

theorem length_dropTopZeros_le (ds : List Digit) : (dropTopZeros ds).length ≤ ds.length := by
  induction ds with
  | nil => simp [dropTopZeros]
  | cons d ds ih =>
    unfold dropTopZeros
    split
    · split <;> simp
    · rename_i e es h
      rw [h] at ih
      simpa using ih

theorem length_strip_le {ds : List Digit} (h : ds ≠ []) : (strip ds).length ≤ ds.length := by
  have hl := length_dropTopZeros_le ds
  have : 0 < ds.length := List.length_pos_iff.mpr h
  unfold strip
  split
  · exact this
  · rename_i e es he
    rwa [he] at hl

/-- No list that `dropTopZeros` returns ends in a most significant zero. -/
theorem getLast_dropTopZeros (ds : List Digit) : (dropTopZeros ds).getLast? ≠ some 0 := by
  induction ds with
  | nil => simp [dropTopZeros]
  | cons d ds ih =>
    unfold dropTopZeros
    split
    · split <;> simp_all
    · rename_i e es h
      rw [h] at ih
      simpa using ih

theorem getLast_strip {ds : List Digit} (h : (strip ds).getLast? = some 0) : strip ds = [0] := by
  unfold strip at h ⊢
  split
  · rfl
  · rename_i e es he
    rw [he] at h
    exact absurd (he ▸ h) (getLast_dropTopZeros ds)

/-- Stripping the digits of 0 leaves the single digit 0. -/
theorem strip_of_mag_zero {ds : List Digit} (h : mag ds = 0) : strip ds = [0] := by
  have key : ∀ ds : List Digit, mag ds = 0 → dropTopZeros ds = [] := by
    intro ds
    induction ds with
    | nil => intro; rfl
    | cons d ds ih =>
      intro h
      have hd : d.val = 0 := by simp at h; omega
      have : dropTopZeros ds = [] := ih (by simp at h; omega)
      simp [dropTopZeros, this, Fin.ext_iff, hd]
  simp [strip, key ds h]

/-! ### Canonicalisation -/

theorem canonical_iff (v : BigInt) : v.canonical = true ↔
    1 ≤ v.digits.length ∧ (v.digits.getLast? = some 0 → v.digits = [0])
      ∧ (mag v.digits = 0 → v.neg = false ∧ v.digits.length = 1) := by
  simp only [BigInt.canonical, Bool.and_eq_true, Bool.or_eq_true, decide_eq_true_eq, and_assoc]
  tauto

/-- `canon` gives a canonical BigInt, whatever it is given (R14). -/
@[simp] theorem canonical_canon (s : Bool) (ds : List Digit) : (canon s ds).canonical = true := by
  rw [canonical_iff]
  refine ⟨List.length_pos_iff.mpr (strip_ne_nil ds), getLast_strip, fun h => ?_⟩
  have h0 : strip ds = [0] := strip_of_mag_zero (by simpa [canon] using h)
  simp [canon, h0]

@[simp] theorem mag_canon (s : Bool) (ds : List Digit) : mag (canon s ds).digits = mag ds := by
  simp [canon]

/-- The value of `canon s ds`: the magnitude of the digits under the sign (R14). -/
theorem val_canon (s : Bool) (ds : List Digit) :
    val (canon s ds) = if s then -(mag ds : Int) else (mag ds : Int) := by
  cases s with
  | false => simp [val, canon]
  | true =>
    by_cases h : strip ds = [0]
    · have : mag ds = 0 := by rw [← mag_strip, h]; rfl
      simp [val, canon, h, this]
    · simp [val, canon, h]

theorem len_canon (s : Bool) (ds : List Digit) : (canon s ds).len = (strip ds).length := rfl

end Sys2Proof.Machine
end

