-- ==== Sys2Proof/Laws/Values.lean ====
section
/-! SUPPORT. Canonical BigInts are the integers: `big`, `val` and `canon` (00_scope.md R12 to R14), the
comparators (R15, 40_construct_format_compare.md R95), and one spec lemma each for the adder, the
subtractor and the negation (41_addsub.md R111 to R114, R90). -/

namespace Sys2Proof.Machine

theorem val_ofNat10 (n : Nat) : (Fin.ofNat 10 n : Digit).val = n % 10 := rfl

/-! ### The digits of a natural number -/

theorem mag_natDigits {fuel n : Nat} (h : n ≤ fuel) : mag (natDigits fuel n) = n := by
  induction fuel generalizing n with
  | zero => simp [natDigits]; omega
  | succ fuel ih =>
    unfold natDigits
    split
    · simp [*]
    · rw [mag_cons, ih (by omega), val_ofNat10]; omega

theorem mag_digitsOf (n : Nat) : mag (digitsOf n) = n := by
  unfold digitsOf
  split
  · simp [*]
  · exact mag_natDigits le_rfl

/-- Without its most significant zeros a digit list is the digits of its magnitude. -/
theorem dropTopZeros_eq_natDigits (ds : List Digit) {fuel : Nat} (h : mag ds ≤ fuel) :
    dropTopZeros ds = natDigits fuel (mag ds) := by
  induction ds generalizing fuel with
  | nil => cases fuel <;> simp [dropTopZeros, natDigits]
  | cons d ds ih =>
    have hd := d.isLt
    by_cases h0 : mag (d :: ds) = 0
    · have h1 : d = 0 := by simp at h0; exact h0.1
      have h2 : mag ds = 0 := by simp at h0; omega
      have h3 := ih (fuel := 0) (by omega)
      rw [h0]
      rw [h2] at h3
      cases fuel <;> simp [dropTopZeros, h3, natDigits, h1]
    · rw [mag_cons] at h0 h ⊢
      cases fuel with
      | zero => omega
      | succ fuel =>
        have e1 : (d.val + 10 * mag ds) / 10 = mag ds := by omega
        have e2 : Fin.ofNat 10 (d.val + 10 * mag ds) = d := by
          apply Fin.ext; rw [val_ofNat10]; omega
        rw [natDigits, if_neg h0, e1, e2, ← ih (fuel := fuel) (by omega)]
        simp only [dropTopZeros]
        cases hz : dropTopZeros ds with
        | nil =>
          have : mag ds = 0 := by rw [← mag_dropTopZeros, hz]; rfl
          have : d ≠ 0 := by rintro rfl; apply h0; simp [this]
          simp [this]
        | cons => simp

/-- `strip` leaves the canonical digits of the magnitude (R14). -/
theorem strip_eq_digitsOf (ds : List Digit) : strip ds = digitsOf (mag ds) := by
  unfold strip digitsOf
  rw [dropTopZeros_eq_natDigits ds le_rfl]
  by_cases h : mag ds = 0
  · simp [h, natDigits]
  · rw [if_neg h]
    cases hm : mag ds with
    | zero => omega
    | succ n => simp [natDigits]

theorem length_natDigits_le {fuel n k : Nat} (h : n ≤ fuel) :
    (natDigits fuel n).length ≤ k ↔ n < 10 ^ k := by
  induction fuel generalizing n k with
  | zero =>
    have : n = 0 := by omega
    subst this
    simp [natDigits]
  | succ fuel ih =>
    unfold natDigits
    split
    · subst n; simp
    · cases k with
      | zero => simp; omega
      | succ k => rw [List.length_cons, Nat.succ_le_succ_iff, ih (by omega), pow_succ]; omega

/-- A number has at most `k` digits exactly when it is below `10^k`. -/
theorem length_digitsOf_le {n k : Nat} (hk : 1 ≤ k) : (digitsOf n).length ≤ k ↔ n < 10 ^ k := by
  unfold digitsOf
  split
  · subst n; simpa using hk
  · exact length_natDigits_le le_rfl

theorem length_digitsOf_pos (n : Nat) : 1 ≤ (digitsOf n).length := by
  rw [← mag_digitsOf n, ← strip_eq_digitsOf]
  exact List.length_pos_iff.mpr (strip_ne_nil _)

theorem length_digitsOf_mono {m n : Nat} (h : m ≤ n) :
    (digitsOf m).length ≤ (digitsOf n).length := by
  rw [length_digitsOf_le (length_digitsOf_pos n)]
  exact lt_of_le_of_lt h ((length_digitsOf_le (length_digitsOf_pos n)).1 le_rfl)

/-! ### Integers and canonical BigInts -/

theorem val_big (z : Int) : val (big z) = z := by
  unfold val big
  simp only [mag_digitsOf, decide_eq_true_eq]
  split <;> omega

/-- `canon` gives the canonical BigInt of the value of its digits under its sign (R14). -/
theorem canon_eq_big (s : Bool) (ds : List Digit) :
    canon s ds = big (if s then -(mag ds : Int) else (mag ds : Int)) := by
  have hz : strip ds = [0] ↔ mag ds = 0 :=
    ⟨fun h => by rw [← mag_strip, h]; rfl, strip_of_mag_zero⟩
  unfold canon big
  congr 1
  · cases s with
    | false => simp
    | true =>
      by_cases h : mag ds = 0
      · simp [hz.2 h, h]
      · have h1 : strip ds ≠ [0] := fun x => h (hz.1 x)
        have h2 : -(mag ds : Int) < 0 := by omega
        simp only [if_true, h2, decide_true]
        simp [h1]
  · rw [strip_eq_digitsOf]
    cases s <;> simp

theorem canonical_big (z : Int) : (big z).canonical = true := by
  have : big z = canon (decide (z < 0)) (digitsOf z.natAbs) := by
    rw [canon_eq_big, mag_digitsOf]
    congr 1
    simp only [decide_eq_true_eq]
    split <;> omega
  rw [this]
  exact canonical_canon _ _

theorem strip_of_canonical {v : BigInt} (h : v.canonical = true) : strip v.digits = v.digits := by
  obtain ⟨h1, h2, -⟩ := (canonical_iff v).1 h
  have key : ∀ ds : List Digit, ds.getLast? ≠ some 0 → dropTopZeros ds = ds := by
    intro ds
    induction ds with
    | nil => simp [dropTopZeros]
    | cons d ds ih =>
      intro h
      unfold dropTopZeros
      cases ds with
      | nil => simp at h; simp [dropTopZeros, h]
      | cons e es => rw [ih (by simpa using h)]
  by_cases hl : v.digits.getLast? = some 0
  · rw [h2 hl]; rfl
  · unfold strip
    rw [key _ hl]
    cases hd : v.digits with
    | nil => simp [hd] at h1
    | cons => rfl

/-- The digits of a canonical BigInt are the digits of its magnitude. -/
theorem digits_of_canonical {v : BigInt} (h : v.canonical = true) :
    v.digits = digitsOf (mag v.digits) := by
  rw [← strip_eq_digitsOf, strip_of_canonical h]

theorem big_val {v : BigInt} (h : v.canonical = true) : big (val v) = v := by
  have hd := digits_of_canonical h
  have h3 := ((canonical_iff v).1 h).2.2
  obtain ⟨neg, ds⟩ := v
  cases neg with
  | false => simp [val, big, ← hd]
  | true =>
    have : 0 < mag ds := Nat.pos_of_ne_zero fun h0 => absurd (h3 h0).1 (by simp)
    simpa [val, big, ← hd] using this

theorem natAbs_val (v : BigInt) : (val v).natAbs = mag v.digits := by
  unfold val
  split <;> simp

theorem neg_iff_val_neg {v : BigInt} (h : v.canonical = true) : v.neg = true ↔ val v < 0 := by
  have h3 := ((canonical_iff v).1 h).2.2
  unfold val
  cases hn : v.neg with
  | false => simp
  | true =>
    simp only [if_true, true_iff]
    have : mag v.digits ≠ 0 := fun h0 => by simp [(h3 h0).1] at hn
    omega

theorem big_inj {x y : Int} (h : big x = big y) : x = y := by rw [← val_big x, h, val_big]

/-- The overflow test of R196, said of the value. -/
theorem len_big_le {z : Int} {k : Nat} (hk : 1 ≤ k) : (big z).len ≤ k ↔ z.natAbs < 10 ^ k :=
  length_digitsOf_le hk

theorem one_le_len {v : BigInt} (h : v.canonical = true) : 1 ≤ v.len := ((canonical_iff v).1 h).1

theorem natAbs_val_lt (v : BigInt) : (val v).natAbs < 10 ^ v.len := by
  rw [natAbs_val]
  exact mag_lt_pow _

/-! ### The comparators -/

/-- A magnitude in canonical form. -/
def CanonMag (x : List Digit) : Prop := x = digitsOf (mag x)

theorem canonMag_digitsOf (n : Nat) : CanonMag (digitsOf n) := by
  unfold CanonMag
  rw [mag_digitsOf]

theorem canonMag_strip (ds : List Digit) : CanonMag (strip ds) := by
  unfold CanonMag
  rw [mag_strip, ← strip_eq_digitsOf]

theorem canonMag_of_canonical {v : BigInt} (h : v.canonical = true) : CanonMag v.digits :=
  digits_of_canonical h

theorem cmpDigits_spec (x y : List Digit) (h : x.length = y.length) :
    cmpDigits x y = compare (mag x) (mag y) := by
  induction x generalizing y with
  | nil => cases y <;> simp_all [cmpDigits]
  | cons a x ih =>
    cases y with
    | nil => simp at h
    | cons b y =>
      have ha := a.isLt
      have hb := b.isLt
      simp only [cmpDigits, ih y (by simpa using h), mag_cons]
      rcases lt_trichotomy (mag x) (mag y) with h | h | h
      · rw [compare_lt_iff_lt.2 h, eq_comm, compare_lt_iff_lt]; omega
      · rw [h, compare_eq_iff_eq.2 rfl]
        simp only [cmpDigit]
        split
        · rw [eq_comm, compare_lt_iff_lt]; omega
        · split
          · rw [eq_comm, compare_gt_iff_gt]; omega
          · rw [eq_comm, compare_eq_iff_eq]; omega
      · rw [compare_gt_iff_gt.2 h, eq_comm, compare_gt_iff_gt]; omega

/-- `cmpmag` orders canonical magnitudes (R15). -/
theorem cmpMag_spec {x y : List Digit} (hx : CanonMag x) (hy : CanonMag y) :
    cmpMag x y = compare (mag x) (mag y) := by
  unfold cmpMag
  split
  · rename_i h
    rw [eq_comm, compare_gt_iff_gt]
    by_contra hc
    rw [hx, hy] at h
    have := length_digitsOf_mono (show mag x ≤ mag y by omega)
    omega
  · split
    · rename_i h
      rw [eq_comm, compare_lt_iff_lt]
      by_contra hc
      rw [hx, hy] at h
      have := length_digitsOf_mono (show mag y ≤ mag x by omega)
      omega
    · exact cmpDigits_spec _ _ (by omega)

/-- `cmp` orders canonical BigInts (R95). -/
theorem cmpBig_spec {a b : BigInt} (ha : a.canonical = true) (hb : b.canonical = true) :
    cmpBig a b = compare (val a) (val b) := by
  have ha3 := ((canonical_iff a).1 ha).2.2
  have hb3 := ((canonical_iff b).1 hb).2.2
  unfold cmpBig val
  rw [cmpMag_spec (canonMag_of_canonical ha) (canonMag_of_canonical hb)]
  cases hna : a.neg <;> cases hnb : b.neg <;> simp [hna, hnb] at *
  · rcases lt_trichotomy (mag a.digits) (mag b.digits) with h | h | h
    · rw [compare_lt_iff_lt.2 h, compare_lt_iff_lt.2]; omega
    · rw [h, compare_eq_iff_eq.2 rfl, compare_eq_iff_eq.2 rfl]
    · rw [compare_gt_iff_gt.2 h, compare_gt_iff_gt.2]; omega
  · rw [eq_comm, compare_gt_iff_gt]
    have := Nat.pos_of_ne_zero hb3
    omega
  · rw [eq_comm, compare_lt_iff_lt]
    have := Nat.pos_of_ne_zero ha3
    omega
  · rcases lt_trichotomy (mag a.digits) (mag b.digits) with h | h | h
    · rw [compare_lt_iff_lt.2 h, compare_gt_iff_gt.2]
      · rfl
      · omega
    · rw [h, compare_eq_iff_eq.2 rfl, compare_eq_iff_eq.2 rfl]; rfl
    · rw [compare_gt_iff_gt.2 h, compare_lt_iff_lt.2]
      · rfl
      · omega

/-! ### The adder and the subtractor -/

theorem mag_carryUp (x : List Digit) (c : Bool) : mag (carryUp x c) = mag x + c.toNat := by
  induction x generalizing c with
  | nil => cases c <;> simp [carryUp]
  | cons a x ih =>
    have := a.isLt
    have := Bool.toNat_le c
    simp only [carryUp, mag_cons, ih, addCell, val_ofNat10, show (0 : Digit).val = 0 from rfl,
      Nat.add_zero]
    by_cases h : 10 ≤ a.val + c.toNat <;>
      simp only [h, decide_true, decide_false, Bool.toNat_true, Bool.toNat_false] <;> omega

theorem mag_addChain (x y : List Digit) (c : Bool) :
    mag (addChain x y c) = mag x + mag y + c.toNat := by
  induction x generalizing y c with
  | nil => simp [addChain, mag_carryUp]
  | cons a x ih =>
    cases y with
    | nil => simp [addChain, mag_carryUp]
    | cons b y =>
      have := a.isLt
      have := b.isLt
      have := Bool.toNat_le c
      simp only [addChain, mag_cons, ih, addCell, val_ofNat10]
      by_cases h : 10 ≤ a.val + b.val + c.toNat <;>
        simp only [h, decide_true, decide_false, Bool.toNat_true, Bool.toNat_false] <;> omega

theorem mag_addMag (x y : List Digit) : mag (addMag x y) = mag x + mag y := by
  simp [addMag, mag_addChain]

theorem mag_subChain (x y : List Digit) (c : Bool) (h : mag y + c.toNat ≤ mag x) :
    mag (subChain x y c) + mag y + c.toNat = mag x := by
  induction x generalizing y c with
  | nil => simp [subChain] at *; omega
  | cons a x ih =>
    have := a.isLt
    have := Bool.toNat_le c
    cases y with
    | nil =>
      simp only [subChain, mag_cons, subCell, val_ofNat10, mag_nil, Fin.val_zero,
        Nat.zero_add] at *
      by_cases hb : a.val < c.toNat
      · have := ih [] true (by simp; omega)
        simp only [hb, decide_true, Bool.toNat_true, mag_nil] at this ⊢; omega
      · have := ih [] false (by simp)
        simp only [hb, decide_false, Bool.toNat_false, mag_nil] at this ⊢; omega
    | cons b y =>
      have := b.isLt
      simp only [subChain, mag_cons, subCell, val_ofNat10] at *
      by_cases hb : a.val < b.val + c.toNat
      · have := ih y true (by simp; omega)
        simp only [hb, decide_true, Bool.toNat_true] at this ⊢; omega
      · have := ih y false (by simp; omega)
        simp only [hb, decide_false, Bool.toNat_false] at this ⊢; omega

theorem mag_subMag {x y : List Digit} (h : mag y ≤ mag x) : mag (subMag x y) = mag x - mag y := by
  have := mag_subChain x y false (by simpa using h)
  simp [subMag] at *
  omega

theorem canonMag_subMag (x y : List Digit) : CanonMag (subMag x y) := canonMag_strip _

/-- The sign dispatch of R114 on unlike signs: the larger magnitude gives the sign. -/
theorem canon_subMag_of_lt {s : Bool} {x y : List Digit} (h : mag x ≤ mag y) :
    canon s (subMag y x) = big (if s then (mag x : Int) - mag y else (mag y : Int) - mag x) := by
  rw [canon_eq_big, mag_subMag h]
  congr 1
  cases s <;> simp <;> omega

/-- `add` is the exact sum (R114, R115). -/
theorem bigAdd_spec {a b : BigInt} (ha : a.canonical = true) (hb : b.canonical = true) :
    bigAdd a b = big (val a + val b) := by
  unfold bigAdd val
  split
  · rename_i e
    rw [canon_eq_big, mag_addMag, ← e]
    congr 1
    cases a.neg <;> simp <;> omega
  · rename_i e
    rw [cmpMag_spec (canonMag_of_canonical ha) (canonMag_of_canonical hb)]
    rcases lt_trichotomy (mag a.digits) (mag b.digits) with h | h | h
    · rw [compare_lt_iff_lt.2 h]
      simp only [canon_subMag_of_lt h.le]
      congr 1
      cases hna : a.neg <;> cases hnb : b.neg <;> simp_all <;> omega
    · rw [compare_eq_iff_eq.2 h]
      simp only [canon_subMag_of_lt h.symm.le]
      congr 1
      cases hna : a.neg <;> cases hnb : b.neg <;> simp_all
    · rw [compare_gt_iff_gt.2 h]
      simp only [canon_subMag_of_lt h.le]
      congr 1
      cases hna : a.neg <;> cases hnb : b.neg <;> simp_all <;> omega

/-- `sub` is the exact difference (R114, R116). -/
theorem bigSub_spec {a b : BigInt} (ha : a.canonical = true) (hb : b.canonical = true) :
    bigSub a b = big (val a - val b) := by
  unfold bigSub val
  split
  · rename_i e
    rw [canon_eq_big, mag_addMag]
    congr 1
    cases hna : a.neg <;> cases hnb : b.neg <;> simp_all
    omega
  · rename_i e
    rw [cmpMag_spec (canonMag_of_canonical ha) (canonMag_of_canonical hb)]
    rcases lt_trichotomy (mag a.digits) (mag b.digits) with h | h | h
    · rw [compare_lt_iff_lt.2 h]
      simp only [canon_subMag_of_lt h.le]
      congr 1
      cases hna : a.neg <;> cases hnb : b.neg <;> simp_all <;> omega
    · rw [compare_eq_iff_eq.2 h]
      simp only [canon_subMag_of_lt h.symm.le]
      congr 1
      cases hna : a.neg <;> cases hnb : b.neg <;> simp_all
    · rw [compare_gt_iff_gt.2 h]
      simp only [canon_subMag_of_lt h.le]
      congr 1
      cases hna : a.neg <;> cases hnb : b.neg <;> simp_all <;> omega

/-- Negation is exact and never gives a negative zero (R90). -/
theorem bigNeg_spec (a : BigInt) : bigNeg a = big (-val a) := by
  unfold bigNeg val
  rw [canon_eq_big]
  cases a.neg <;> simp

end Sys2Proof.Machine
end

