-- ==== Sys2Proof/Laws/MulDiv.lean ====
section
/-! SUPPORT. One spec lemma each for the digit-product array and the product (42_mul.md R130 to R132),
the restoring divider with quotient and remainder (43_divrem.md R140 to R144), and the non-negative
reduction (44_modular.md R155). -/

namespace Sys2Proof.Machine

/-! ### The multiplier -/

/-- One row adds `x` times the digits of `ys` to the low digits and stores its carry above them. -/
theorem mulRow_spec (x : Digit) (ys low rest : List Digit) (c : Digit)
    (h : low.length = ys.length) :
    ∃ low' c', mulRow x ys (low ++ 0 :: rest) c = low' ++ c' :: rest
      ∧ low'.length = low.length
      ∧ mag low' + 10 ^ low'.length * c'.val = mag low + x.val * mag ys + c.val := by
  induction ys generalizing low c with
  | nil =>
    have : low = [] := by simpa using h
    subst this
    exact ⟨[], c, rfl, rfl, by simp⟩
  | cons y ys ih =>
    cases low with
    | nil => simp at h
    | cons b low =>
      obtain ⟨low', c', h1, h2, h3⟩ := ih low (mulCell b x y c).2 (by simpa using h)
      refine ⟨(mulCell b x y c).1 :: low', c', by simp [mulRow, h1], by simp [h2], ?_⟩
      have hb := b.isLt
      have hx := x.isLt
      have hy := y.isLt
      have hc := c.isLt
      have hxy : x.val * y.val ≤ 81 :=
        Nat.mul_le_mul (show x.val ≤ 9 by omega) (show y.val ≤ 9 by omega)
      have e1 : (b.val + x.val * y.val + c.val) / 10 % 10 = (b.val + x.val * y.val + c.val) / 10 := by
        omega
      have e2 : x.val * (y.val + 10 * mag ys) = x.val * y.val + 10 * (x.val * mag ys) := by ring
      have e3 : 10 ^ low'.length * 10 * c'.val = 10 * (10 ^ low'.length * c'.val) := by ring
      simp only [mag_cons, List.length_cons, pow_succ, mulCell, val_ofNat10] at h3 ⊢
      rw [e1] at h3
      rw [e2, e3]
      omega

theorem mulRows_spec (xs ys low : List Digit) (h : low.length = ys.length) :
    mag (mulRows xs ys (low ++ List.replicate xs.length 0)) = mag low + mag xs * mag ys
      ∧ (mulRows xs ys (low ++ List.replicate xs.length 0)).length = xs.length + ys.length := by
  induction xs generalizing low with
  | nil => simp [mulRows, h]
  | cons x xs ih =>
    obtain ⟨low', c', h1, h2, h3⟩ := mulRow_spec x ys low (List.replicate xs.length 0) 0 h
    rw [List.length_cons, List.replicate_succ]
    simp only [mulRows, h1]
    cases low' with
    | nil =>
      have hy : ys = [] := by simp at h2; rw [← h2] at h; simpa using h.symm
      have hl : low = [] := by simpa using h2.symm
      subst hy hl
      have := ih [] rfl
      simp at this h3 ⊢
      exact ⟨by simp [h3, this.1], this.2⟩
    | cons b tail =>
      have e : tail ++ c' :: List.replicate xs.length 0
          = (tail ++ [c']) ++ List.replicate xs.length 0 := by simp
      have e1 : 10 ^ tail.length * 10 * c'.val = 10 * (10 ^ tail.length * c'.val) := by ring
      have e2 : (x.val + 10 * mag xs) * mag ys = x.val * mag ys + 10 * (mag xs * mag ys) := by ring
      have := ih (tail ++ [c']) (by simp at h2 ⊢; omega)
      simp only [List.cons_append, e, mag_cons, this, List.length_cons]
      simp only [mag_append, mag_cons, mag_nil, List.length_cons, pow_succ] at h3 ⊢
      rw [e1] at h3
      rw [e2]
      refine ⟨?_, by omega⟩
      simp at h3 ⊢
      omega

theorem mag_mulMag (x y : List Digit) : mag (mulMag x y) = mag x * mag y := by
  unfold mulMag
  rw [Nat.add_comm x.length, List.replicate_add, (mulRows_spec x y _ (by simp)).1]
  simp

/-- The product is exact (R132). -/
theorem bigMul_spec (a b : BigInt) : bigMul a b = big (val a * val b) := by
  unfold bigMul val
  rw [canon_eq_big, mag_mulMag]
  cases a.neg <;> cases b.neg <;> simp

/-! ### The divider -/

/-- The inner loop counts the quotient of the running remainder and leaves its remainder. -/
theorem subtractWhile_spec {y : List Digit} (hy : CanonMag y) (hpos : 0 < mag y) (fuel : Nat)
    {r : List Digit} (hr : CanonMag r) (h : mag r < (fuel + 1) * mag y) :
    (subtractWhile fuel r y).1 = mag r / mag y ∧ CanonMag (subtractWhile fuel r y).2
      ∧ mag (subtractWhile fuel r y).2 = mag r % mag y := by
  induction fuel generalizing r with
  | zero =>
    simp only [subtractWhile]
    rw [Nat.zero_add, Nat.one_mul] at h
    exact ⟨(Nat.div_eq_of_lt h).symm, hr, (Nat.mod_eq_of_lt h).symm⟩
  | succ fuel ih =>
    unfold subtractWhile
    rw [cmpMag_spec hr hy]
    have key : mag y ≤ mag r → (subtractWhile fuel (subMag r y) y).1 + 1 = mag r / mag y
        ∧ CanonMag (subtractWhile fuel (subMag r y) y).2
        ∧ mag (subtractWhile fuel (subMag r y) y).2 = mag r % mag y := by
      intro hle
      have hlt : mag (subMag r y) < (fuel + 1) * mag y := by
        have : (fuel + 1 + 1) * mag y = (fuel + 1) * mag y + mag y := by ring
        rw [mag_subMag hle]
        omega
      obtain ⟨h1, h2, h3⟩ := ih (canonMag_subMag _ _) hlt
      rw [mag_subMag hle] at h1 h3
      exact ⟨by rw [h1, Nat.div_eq_sub_div hpos hle], h2, by rw [h3, Nat.mod_eq_sub_mod hle]⟩
    rcases lt_trichotomy (mag r) (mag y) with h' | h' | h'
    · rw [compare_lt_iff_lt.2 h']
      exact ⟨(Nat.div_eq_of_lt h').symm, hr, (Nat.mod_eq_of_lt h').symm⟩
    · rw [compare_eq_iff_eq.2 h']
      exact key (by omega)
    · rw [compare_gt_iff_gt.2 h']
      exact key (by omega)

theorem divLoop_spec {y : List Digit} (hy : CanonMag y) (hpos : 0 < mag y) (x : List Digit) :
    mag (divLoop x y).1 = mag x / mag y ∧ (divLoop x y).1.length = x.length
      ∧ CanonMag (divLoop x y).2 ∧ mag (divLoop x y).2 = mag x % mag y := by
  induction x with
  | nil => simp [divLoop, CanonMag]; decide
  | cons d ds ih =>
    obtain ⟨h1, h2, h3, h4⟩ := ih
    have hd := d.isLt
    have hmod := Nat.mod_lt (mag ds) hpos
    obtain ⟨k1, k2, k3⟩ := subtractWhile_spec hy hpos 9
      (canonMag_strip (d :: (divLoop ds y).2)) (by rw [mag_strip, mag_cons]; omega)
    simp only [divLoop, mag_cons, List.length_cons, val_ofNat10, k1, k3, h1, h2]
    rw [mag_strip, mag_cons, h4]
    have e : d.val + 10 * mag ds
        = (d.val + 10 * (mag ds % mag y)) + mag y * (10 * (mag ds / mag y)) := by
      have hm := Nat.div_add_mod (mag ds) (mag y)
      have : mag y * (10 * (mag ds / mag y)) = 10 * (mag y * (mag ds / mag y)) := by ring
      omega
    have hq : (d.val + 10 * (mag ds % mag y)) / mag y < 10 := by
      rw [Nat.div_lt_iff_lt_mul hpos]; omega
    refine ⟨?_, trivial, k2, ?_⟩
    · rw [e, Nat.add_mul_div_left _ _ hpos, Nat.mod_eq_of_lt hq]
    · rw [e, Nat.add_mul_mod_self_left]

theorem divMag_spec {y : List Digit} (hy : CanonMag y) (hpos : 0 < mag y) (x : List Digit) :
    (divMag x y).1 = digitsOf (mag x / mag y) ∧ (divMag x y).2 = digitsOf (mag x % mag y) := by
  obtain ⟨h1, -, h3, h4⟩ := divLoop_spec hy hpos x
  unfold divMag
  simp only [strip_eq_digitsOf, h1]
  exact ⟨trivial, by rw [h3, h4]⟩

/-- The quotient truncates toward zero (R143). -/
theorem bigDiv_spec {a b : BigInt} (hb : b.canonical = true) (h0 : mag b.digits ≠ 0) :
    bigDiv a b = big ((val a).tdiv (val b)) := by
  unfold bigDiv
  rw [(divMag_spec (canonMag_of_canonical hb) (by omega) _).1, canon_eq_big, mag_digitsOf]
  unfold val
  cases a.neg <;> cases b.neg <;> simp [Int.tdiv_neg, Int.neg_tdiv]

/-- The remainder is negative when the signs differ (R144). -/
theorem bigRem_spec {a b : BigInt} (hb : b.canonical = true) (h0 : mag b.digits ≠ 0) :
    bigRem a b = big (if a.neg = b.neg then ((mag a.digits % mag b.digits : Nat) : Int)
      else -((mag a.digits % mag b.digits : Nat) : Int)) := by
  unfold bigRem
  rw [(divMag_spec (canonMag_of_canonical hb) (by omega) _).2, canon_eq_big, mag_digitsOf]
  cases a.neg <;> cases b.neg <;> simp

/-! ### The non-negative reduction -/

theorem mag_of_val_pos {m : BigInt} (hm : m.canonical = true) (hpos : 0 < val m) :
    m.neg = false ∧ val m = (mag m.digits : Int) := by
  have hn : m.neg = false := by
    by_contra h
    have := (neg_iff_val_neg hm).1 (by simpa using h)
    omega
  exact ⟨hn, by simp [val, hn]⟩

/-- `emod` is the residue in `[0, m)` (R155). -/
theorem emod_spec {a m : BigInt} (hm : m.canonical = true) (hpos : 0 < val m) :
    emod a m = big (val a % val m) := by
  obtain ⟨-, hv⟩ := mag_of_val_pos hm hpos
  have h0 : 0 < mag m.digits := by omega
  have hlt := Nat.mod_lt (mag a.digits) h0
  unfold emod
  simp only [(divMag_spec (canonMag_of_canonical hm) h0 _).2, mag_digitsOf]
  rw [hv]
  split
  · rename_i h
    rw [canon_eq_big, mag_subMag (by rw [mag_digitsOf]; omega), mag_digitsOf]
    congr 1
    have hdm := Nat.div_add_mod (mag a.digits) (mag m.digits)
    have hr := h.2
    simp only [val, h.1, if_true]
    generalize mag a.digits % mag m.digits = r at *
    generalize mag a.digits / mag m.digits = q at *
    have e : -(mag a.digits : Int)
        = ((mag m.digits - r : Nat) : Int) + (mag m.digits : Int) * (-(q : Int) - 1) := by
      rw [← hdm]
      push_cast [Nat.cast_sub (le_of_lt hlt)]
      ring
    rw [e, Int.add_mul_emod_self_left, Int.emod_eq_of_lt (by omega) (by omega)]
    simp
  · rename_i h
    rw [canon_eq_big, mag_digitsOf]
    congr 1
    simp only [Bool.false_eq_true, if_false]
    unfold val
    cases hna : a.neg with
    | false => simp
    | true =>
      have h1 : mag a.digits % mag m.digits = 0 := by
        by_contra hne
        exact h ⟨hna, hne⟩
      rw [h1]
      simp only [if_true]
      exact (Int.emod_eq_zero_of_dvd
        (Int.dvd_neg.2 (Int.natCast_dvd_natCast.2 (Nat.dvd_of_mod_eq_zero h1)))).symm

end Sys2Proof.Machine
end

