-- ==== Sys2Proof/Laws/NumberTheory.lean ====
section
/-! SUPPORT. One spec lemma each for the square-and-multiply loop (45_modexp.md R165), Euclid's algorithm
(46_gcd_modinv.md R175) and the extended Euclid (R177). Each says that the bound on the number of
iterations is never what ends the loop (log entry 5). -/

namespace Sys2Proof.Machine

theorem bigOne_eq : bigOne = big 1 := rfl
theorem bigZero_eq : bigZero = big 0 := rfl
theorem bigTwo_eq : bigTwo = big 2 := rfl

/-- The test "is `x.d[0]` odd" (R60, R165). -/
theorem isOdd_spec (v : BigInt) : isOdd v = decide (val v % 2 = 1) := by
  have key : isOdd v = decide (mag v.digits % 2 = 1) := by
    unfold isOdd
    cases v.digits with
    | nil => rfl
    | cons d ds =>
      have e : mag (d :: ds) % 2 = d.val % 2 := by rw [mag_cons]; omega
      simp only [e]
      rfl
  rw [key]
  unfold val
  split <;> congr 1 <;> simp <;> omega

/-- A magnitude of `n` digits is below `2^(4n)`. -/
theorem mag_lt_two_pow (y : List Digit) : mag y < 2 ^ (4 * y.length) := by
  have h1 := mag_lt_pow y
  have h2 : 10 ^ y.length ≤ 16 ^ y.length := Nat.pow_le_pow_left (by omega) _
  rw [pow_mul, show (2 : Nat) ^ 4 = 16 by norm_num]
  omega

/-! ### Modular exponentiation -/

theorem emod_pow_emod (b m : Int) (n : Nat) : (b % m) ^ n % m = b ^ n % m :=
  (Int.mod_modEq b m).pow n

/-- The loop keeps `acc * b^x` modulo `m`. -/
theorem modexpLoop_spec {m : BigInt} (hm : m.canonical = true) (hpos : 0 < val m) (fuel : Nat)
    {acc : Int} (b x : Int) (h0 : 0 ≤ acc) (h1 : acc < val m) (hx : x.toNat < 2 ^ fuel) :
    modexpLoop fuel (big acc) (big b) (big x) m = big (acc * b ^ x.toNat % val m) := by
  induction fuel generalizing acc b x with
  | zero =>
    have : x.toNat = 0 := by simpa using hx
    simp [modexpLoop, this, Int.emod_eq_of_lt h0 h1]
  | succ fuel ih =>
    have done : x ≤ 0 → big acc = big (acc * b ^ x.toNat % val m) := fun hx => by
      simp [show x.toNat = 0 by omega, Int.emod_eq_of_lt h0 h1]
    unfold modexpLoop
    rw [bigZero_eq, cmpBig_spec (canonical_big x) (canonical_big 0), val_big, val_big]
    rcases lt_trichotomy x 0 with hs | hs | hs
    · rw [compare_lt_iff_lt.2 hs]; exact done hs.le
    · rw [compare_eq_iff_eq.2 hs]; exact done hs.le
    · rw [compare_gt_iff_gt.2 hs]
      simp only [isOdd_spec, bigMul_spec, val_big, emod_spec hm hpos, bigTwo_eq]
      rw [bigDiv_spec (canonical_big 2) (by decide), val_big, val_big,
        Int.tdiv_eq_ediv_of_nonneg hs.le]
      have half : (x / 2).toNat = x.toNat / 2 := by omega
      have hlt : (x / 2).toNat < 2 ^ fuel := by
        rw [half, Nat.div_lt_iff_lt_mul (by omega), ← pow_succ]
        exact hx
      have square : (b * b % val m) ^ (x / 2).toNat % val m = (b ^ 2) ^ (x / 2).toNat % val m := by
        rw [emod_pow_emod, sq]
      by_cases hodd : x % 2 = 1
      · simp only [hodd, decide_true, if_true]
        rw [ih _ _ (Int.emod_nonneg _ (by omega)) (Int.emod_lt_of_pos _ hpos) hlt]
        congr 1
        conv_rhs => rw [show x.toNat = 2 * (x / 2).toNat + 1 by omega, pow_succ, pow_mul]
        rw [Int.mul_emod, Int.emod_emod_of_dvd _ (dvd_refl _), square, ← Int.mul_emod]
        congr 1
        ring
      · simp only [hodd, decide_false, Bool.false_eq_true, if_false]
        rw [ih _ _ h0 h1 hlt]
        congr 1
        conv_rhs => rw [show x.toNat = 2 * (x / 2).toNat by omega, pow_mul]
        rw [Int.mul_emod, square, ← Int.mul_emod]

/-- `modexp` is the residue of the power, with an exponent of 0 or less read as 0 (R165). -/
theorem modexp_spec {base e m : BigInt} (he : e.canonical = true) (hm : m.canonical = true)
    (hpos : 0 < val m) : modexp base e m = big (val base ^ (val e).toNat % val m) := by
  have hlt : (val e).toNat < 2 ^ (4 * e.len) := by
    have h1 := mag_lt_two_pow e.digits
    have h2 := natAbs_val e
    have : e.len = e.digits.length := rfl
    rw [this]
    omega
  have loop := modexpLoop_spec hm hpos (4 * e.len) (val base % val m) (val e)
    (Int.emod_nonneg 1 (by omega)) (Int.emod_lt_of_pos 1 hpos) hlt
  rw [big_val he] at loop
  unfold modexp
  rw [emod_spec hm hpos, emod_spec hm hpos, bigOne_eq, val_big, loop]
  congr 1
  rw [Int.mul_emod, Int.emod_emod_of_dvd _ (dvd_refl _), emod_pow_emod, ← Int.mul_emod, one_mul]

/-! ### The greatest common divisor -/

/-- Two iterations at least halve the second operand. -/
theorem gcdLoop_spec (fuel x y : Nat) (h : y < 2 ^ fuel) :
    gcdLoop (2 * fuel) (digitsOf x) (digitsOf y) = digitsOf (Nat.gcd x y) := by
  induction fuel generalizing x y with
  | zero =>
    have : y = 0 := by simpa using h
    subst this
    simp [gcdLoop]
  | succ fuel ih =>
    rw [show 2 * (fuel + 1) = (2 * fuel + 1) + 1 by ring]
    unfold gcdLoop
    rw [mag_digitsOf]
    split
    · rename_i h0; subst h0; simp
    · rename_i h0
      rw [(divMag_spec (canonMag_digitsOf y) (by rw [mag_digitsOf]; omega) _).2, mag_digitsOf,
        mag_digitsOf]
      unfold gcdLoop
      rw [mag_digitsOf]
      split
      · rename_i h1
        rw [Nat.gcd_comm, Nat.gcd_rec, h1]
        simp
      · rename_i h1
        rw [(divMag_spec (canonMag_digitsOf _) (by rw [mag_digitsOf]; omega) _).2, mag_digitsOf,
          mag_digitsOf, ih]
        · congr 1
          rw [Nat.gcd_comm x y, Nat.gcd_rec y x, Nat.gcd_rec (x % y) y, Nat.gcd_comm]
        · have h2 : x % y < y := Nat.mod_lt _ (by omega)
          have h3 := Nat.div_add_mod y (x % y)
          have h4 : y % (x % y) < x % y := Nat.mod_lt _ (by omega)
          have h5 : x % y ≤ (x % y) * (y / (x % y)) :=
            Nat.le_mul_of_pos_right _ (Nat.div_pos (by omega) (by omega))
          rw [pow_succ] at h
          omega

theorem gcdMag_spec {x y : List Digit} (hx : CanonMag x) (hy : CanonMag y) :
    gcdMag x y = digitsOf (Nat.gcd (mag x) (mag y)) := by
  have := gcdLoop_spec (4 * y.length) (mag x) (mag y) (mag_lt_two_pow y)
  rw [← hx, ← hy] at this
  unfold gcdMag
  rwa [show 8 * y.length = 2 * (4 * y.length) by ring]

/-- `GCD` writes the greatest common divisor of the magnitudes (R175, R176). -/
theorem bigGcd_spec {a b : BigInt} (ha : a.canonical = true) (hb : b.canonical = true) :
    bigGcd a b = big (Int.gcd (val a) (val b)) := by
  unfold bigGcd
  rw [canon_eq_big, gcdMag_spec (canonMag_of_canonical ha) (canonMag_of_canonical hb),
    mag_digitsOf]
  simp [Int.gcd, natAbs_val]

/-! ### The modular inverse -/

theorem int_gcd_emod {a b : Int} (ha : 0 ≤ a) (hb : 0 < b) :
    Int.gcd b (a % b) = Int.gcd a b := by
  obtain ⟨n, rfl⟩ := Int.eq_ofNat_of_zero_le ha
  obtain ⟨k, rfl⟩ := Int.eq_ofNat_of_zero_le hb.le
  rw [← Int.natCast_mod, Int.gcd_natCast_natCast, Int.gcd_natCast_natCast, Nat.gcd_comm n k,
    Nat.gcd_comm k, ← Nat.gcd_rec]

/-- One iteration of R177. -/
theorem modinvLoop_succ (fuel : Nat) {d1 d2 : Int} (x1 x2 : Int) (h1 : 0 ≤ d1) (h2 : 0 < d2) :
    modinvLoop (fuel + 1) (big d1) (big d2) (big x1) (big x2)
      = modinvLoop fuel (big d2) (big (d1 % d2)) (big x2) (big (x1 - d1 / d2 * x2)) := by
  have hne : mag (big d2).digits ≠ 0 := by rw [← natAbs_val, val_big]; omega
  rw [modinvLoop, if_neg hne, bigDiv_spec (canonical_big _) hne]
  simp only [bigMul_spec, val_big]
  rw [bigSub_spec (canonical_big _) (canonical_big _), bigSub_spec (canonical_big _) (canonical_big _)]
  simp only [val_big]
  rw [Int.tdiv_eq_ediv_of_nonneg h1]
  congr 2
  rw [Int.emod_def]
  ring

theorem modinvLoop_zero (fuel : Nat) (d1 x1 x2 : Int) :
    modinvLoop fuel (big d1) (big 0) (big x1) (big x2) = (big d1, big x1) := by
  cases fuel with
  | zero => rfl
  | succ fuel => rw [modinvLoop, if_pos (show mag (big 0).digits = 0 by decide)]

/-- The invariant of R177, modulo `M`: each remainder is its coefficient times `E`. -/
theorem modinvLoop_spec (E M : Int) (fuel : Nat) {d1 d2 x1 x2 : Int} (h1 : 0 ≤ d1) (h2 : 0 ≤ d2)
    (hf : d2.toNat < 2 ^ fuel) (i1 : M ∣ d1 - x1 * E) (i2 : M ∣ d2 - x2 * E) :
    ∃ x, modinvLoop (2 * fuel) (big d1) (big d2) (big x1) (big x2)
        = (big (Int.gcd d1 d2), big x) ∧ M ∣ (Int.gcd d1 d2 : Int) - x * E := by
  have gcd0 : ∀ d : Int, 0 ≤ d → ((Int.gcd d 0 : Nat) : Int) = d := fun d hd => by
    simp [abs_of_nonneg hd]
  have next : ∀ {d1 d2 x1 x2 : Int}, M ∣ d1 - x1 * E → M ∣ d2 - x2 * E →
      M ∣ d1 % d2 - (x1 - d1 / d2 * x2) * E := by
    intro d1 d2 x1 x2 a b
    have e : d1 % d2 - (x1 - d1 / d2 * x2) * E
        = (d1 - x1 * E) - (d1 / d2) * (d2 - x2 * E) := by
      rw [Int.emod_def]; ring
    rw [e]
    exact Int.dvd_sub a (Dvd.dvd.mul_left b _)
  induction fuel generalizing d1 d2 x1 x2 with
  | zero =>
    have : d2 = 0 := by simp at hf; omega
    subst this
    exact ⟨x1, by rw [modinvLoop_zero, gcd0 _ h1], by rwa [gcd0 _ h1]⟩
  | succ fuel ih =>
    rw [show 2 * (fuel + 1) = (2 * fuel + 1) + 1 by ring]
    rcases eq_or_lt_of_le h2 with h0 | h0
    · subst h0
      exact ⟨x1, by rw [modinvLoop_zero, gcd0 _ h1], by rwa [gcd0 _ h1]⟩
    · have hr := Int.emod_nonneg d1 (show d2 ≠ 0 by omega)
      rw [modinvLoop_succ _ _ _ h1 h0, ← int_gcd_emod h1 h0]
      rcases eq_or_lt_of_le hr with h7 | h7
      · rw [← h7]
        exact ⟨x2, by rw [modinvLoop_zero, gcd0 _ h2], by rwa [gcd0 _ h2]⟩
      · rw [modinvLoop_succ _ _ _ h2 h7, ← int_gcd_emod h2 h7]
        refine ih hr (Int.emod_nonneg d2 (show d1 % d2 ≠ 0 by omega)) ?_ (next i1 i2)
          (next i2 (next i1 i2))
        have hlt := Int.emod_lt_of_pos d1 h0
        have k := Int.emod_lt_of_pos d2 h7
        have hdm := Int.emod_add_mul_ediv d2 (d1 % d2)
        have q1 : 1 ≤ d2 / (d1 % d2) := Int.le_ediv_of_mul_le h7 (by omega)
        have q2 : d1 % d2 ≤ (d1 % d2) * (d2 / (d1 % d2)) := by nlinarith
        rw [pow_succ] at hf
        omega

theorem int_gcd_modulus_emod (e m : Int) : Int.gcd m (e % m) = Int.gcd e m := by
  apply Nat.dvd_antisymm
  · refine Int.dvd_gcd ?_ (Int.gcd_dvd_left ..)
    have h : ∀ k : Int, k ∣ m → k ∣ e % m → k ∣ e := fun k a b => by
      rw [← Int.emod_add_mul_ediv e m]
      exact dvd_add b (Dvd.dvd.mul_right a _)
    exact h _ (Int.gcd_dvd_left ..) (Int.gcd_dvd_right ..)
  · refine Int.dvd_gcd (Int.gcd_dvd_right ..) ?_
    rw [Int.emod_def]
    exact Int.dvd_sub (Int.gcd_dvd_left ..) (Dvd.dvd.mul_right (Int.gcd_dvd_right ..) _)

/-- `modinv` answers the inverse in `[0, m)`, or none when value and modulus are not coprime
(R177). -/
theorem modinv_spec {e m : BigInt} (hm : m.canonical = true) (hpos : 0 < val m) :
    (Int.gcd (val e) (val m) ≠ 1 → modinv e m = none)
      ∧ (Int.gcd (val e) (val m) = 1 → ∃ d, modinv e m = some (big d) ∧ 0 ≤ d ∧ d < val m
        ∧ val e * d % val m = 1 % val m) := by
  have hE : emod e m = big (val e % val m) := emod_spec hm hpos
  have h0 := Int.emod_nonneg (val e) (show val m ≠ 0 by omega)
  have hlt : (val e % val m).toNat < 2 ^ (4 * (emod e m).len) := by
    have h1 := mag_lt_two_pow (emod e m).digits
    rw [← natAbs_val, hE, val_big] at h1
    rw [hE]
    have : (big (val e % val m)).len = (big (val e % val m)).digits.length := rfl
    rw [this]
    omega
  obtain ⟨x, hx, hdvd⟩ := modinvLoop_spec (val e) (val m) (4 * (emod e m).len) hpos.le h0 hlt
    (show val m ∣ val m - 0 * val e by simp)
    (show val m ∣ val e % val m - 1 * val e by
      rw [one_mul]; exact ⟨-(val e / val m), by rw [Int.emod_def]; ring⟩)
  rw [int_gcd_modulus_emod] at hx hdvd
  have hend : modinvEnd e m = (big (Int.gcd (val e) (val m)), big x) := by
    unfold modinvEnd
    rw [← hx, ← hE, bigZero_eq, bigOne_eq, big_val hm]
    congr 1
    ring
  unfold modinv
  simp only [hend, bigOne_eq]
  refine ⟨fun h => ?_, fun h => ?_⟩
  · rw [if_neg]
    intro hc
    have := big_inj hc
    omega
  · rw [h] at hdvd
    rw [if_pos (by rw [h]; rfl), emod_spec hm hpos, val_big]
    refine ⟨x % val m, rfl, Int.emod_nonneg _ (by omega), Int.emod_lt_of_pos _ hpos, ?_⟩
    rw [Int.mul_emod, Int.emod_emod_of_dvd _ (dvd_refl _), ← Int.mul_emod, mul_comm, eq_comm]
    exact Int.emod_eq_emod_iff_emod_sub_eq_zero.2 (Int.emod_eq_zero_of_dvd (by simpa using hdvd))

end Sys2Proof.Machine
end

