-- ==== Sys2Proof/Laws/PerInstr.lean ====
section
/-! SUPPORT. The family OpcodeByte: the top byte of every encoded instruction is the opcode that
30_encoding.md R62 gives its mnemonic. The halt filter looks at this byte only (60_exceptions.md
R201). -/

namespace Sys2Proof.Laws.OpcodeByte

open Sys2Proof

/-- The opcode byte of R62. -/
def opcodeOf : Instr → Byte
  | .nop => 0x00
  | .clre => 0x01
  | .rdsr _ => 0x02
  | .beginNum _ _ => 0x08
  | .pushd _ _ => 0x09
  | .endNum _ => 0x0A
  | .seti _ _ => 0x0B
  | .mov _ _ => 0x0C
  | .neg _ _ => 0x0D
  | .len _ => 0x0E
  | .getd _ _ => 0x0F
  | .cmp _ _ => 0x10
  | .add _ _ _ => 0x20
  | .sub _ _ _ => 0x21
  | .mul _ _ _ => 0x28
  | .div _ _ _ => 0x30
  | .rem _ _ _ => 0x31
  | .divmod _ _ _ _ => 0x32
  | .modn _ _ _ => 0x38
  | .modmul _ _ _ _ => 0x39
  | .modexp _ _ _ _ => 0x40
  | .gcd _ _ _ => 0x48
  | .modinv _ _ _ => 0x49

/-- The encoder puts the opcode of R62 in the top byte. -/
def Statement (i : Instr) : Prop := opField (encode i) = opcodeOf i

theorem nop : Statement .nop := opField_wordOfFields ..
theorem clre : Statement .clre := opField_wordOfFields ..
theorem rdsr (idx : Byte) : Statement (.rdsr idx) := opField_wordOfFields ..
theorem beginNum (rd : RegId) (sign : Bool) : Statement (.beginNum rd sign) :=
  opField_wordOfFields ..
theorem pushd (rd : RegId) (code : Byte) : Statement (.pushd rd code) := opField_wordOfFields ..
theorem endNum (rd : RegId) : Statement (.endNum rd) := opField_wordOfFields ..
theorem seti (rd : RegId) (imm : Half) : Statement (.seti rd imm) := opField_wordOfImm16 ..
theorem mov (rd ra : RegId) : Statement (.mov rd ra) := opField_wordOfFields ..
theorem neg (rd ra : RegId) : Statement (.neg rd ra) := opField_wordOfFields ..
theorem len (ra : RegId) : Statement (.len ra) := opField_wordOfFields ..
theorem getd (ra : RegId) (index : Half) : Statement (.getd ra index) := opField_wordOfImm16 ..
theorem cmp (ra rb : RegId) : Statement (.cmp ra rb) := opField_wordOfFields ..
theorem add (rd ra rb : RegId) : Statement (.add rd ra rb) := opField_wordOfFields ..
theorem sub (rd ra rb : RegId) : Statement (.sub rd ra rb) := opField_wordOfFields ..
theorem mul (rd ra rb : RegId) : Statement (.mul rd ra rb) := opField_wordOfFields ..
theorem div (rd ra rb : RegId) : Statement (.div rd ra rb) := opField_wordOfFields ..
theorem rem (rd ra rb : RegId) : Statement (.rem rd ra rb) := opField_wordOfFields ..
theorem divmod (rd ra rb rc : RegId) : Statement (.divmod rd ra rb rc) := opField_wordOfFields ..
theorem modn (rd ra rc : RegId) : Statement (.modn rd ra rc) := opField_wordOfFields ..
theorem modmul (rd ra rb rc : RegId) : Statement (.modmul rd ra rb rc) := opField_wordOfFields ..
theorem modexp (rd ra rb rc : RegId) : Statement (.modexp rd ra rb rc) := opField_wordOfFields ..
theorem gcd (rd ra rb : RegId) : Statement (.gcd rd ra rb) := opField_wordOfFields ..
theorem modinv (rd ra rc : RegId) : Statement (.modinv rd ra rc) := opField_wordOfFields ..

end Sys2Proof.Laws.OpcodeByte
end

