-- ==== Sys2Proof/Laws/Run.lean ====
section
/-! SUPPORT. Runs: a run of two sequences is the run of the second after the first, and no command looks
at the words queued behind it. -/

namespace Sys2Proof.Machine

/-- The state with another queue of command words. -/
abbrev State.withCmds (qs : List Word) (s : State) : State := { s with cmds := qs }

/-- The end of a command on the state with another queue. -/
def Completion.withCmds (qs : List Word) : Completion → Completion
  | .ok t f d => .ok (t.withCmds qs) f d
  | .err st => .err st

@[simp] theorem Completion.withCmds_ok (qs : List Word) (t : State) (f : Flags) (d : Half) :
    (Completion.ok t f d).withCmds qs = .ok (t.withCmds qs) f d := rfl

@[simp] theorem Completion.withCmds_err (qs : List Word) (st : Status) :
    (Completion.err st).withCmds qs = .err st := rfl

theorem raiseStatus_withCmds (st : Status) (w : Word) (qs : List Word) (s : State) :
    raiseStatus st w (s.withCmds qs) = (raiseStatus st w s).withCmds qs := by
  unfold raiseStatus haltEntry
  split <;> simp_all [respond]

theorem rejectWord_withCmds (w : Word) (qs : List Word) (s : State) :
    rejectWord w (s.withCmds qs) = (rejectWord w s).withCmds qs := by
  simp only [rejectWord, raiseStatus_withCmds]
  split <;> rfl

theorem complete_withCmds {w : Word} {qs : List Word} {s t : State} {c : Completion}
    (h : complete w s c = .next t) :
    complete w (s.withCmds qs) (c.withCmds qs) = .next (t.withCmds qs) := by
  cases c with
  | ok u f d =>
    obtain rfl := Host.Outcome.next.inj h
    rfl
  | err st =>
    obtain rfl := Host.Outcome.next.inj h
    simp only [Completion.withCmds_err, complete_err, raiseStatus_withCmds]

theorem whenReady_withCmds {qs : List Word} {s : State} {c c' : Completion}
    (h : c' = c.withCmds qs) : whenReady (s.withCmds qs) c' = (whenReady s c).withCmds qs := by
  subst h
  unfold whenReady
  cases s.mode <;> rfl

theorem withSrc_withCmds {qs : List Word} {s : State} {r : RegId} {k k' : BigInt → Completion}
    (h : ∀ v, k' v = (k v).withCmds qs) :
    withSrc (s.withCmds qs) r k' = (withSrc s r k).withCmds qs := by
  cases hr : s.reg r <;> have hr' : (s.withCmds qs).reg r = _ := hr <;> simp [withSrc, hr, hr', h]

theorem withOpen_withCmds {qs : List Word} {s : State} {r : RegId}
    {k k' : Bool → List Digit → Completion} (h : ∀ b ds, k' b ds = (k b ds).withCmds qs) :
    withOpen (s.withCmds qs) r k' = (withOpen s r k).withCmds qs := by
  cases hr : s.reg r <;> have hr' : (s.withCmds qs).reg r = _ := hr <;> simp [withOpen, hr, hr', h]

theorem writeChecked_withCmds (qs : List Word) (s : State) (rd : RegId) (v : BigInt) :
    writeChecked (s.withCmds qs) rd v = (writeChecked s rd v).withCmds qs := by
  unfold writeChecked
  split <;> rfl

theorem withModulus_withCmds {qs : List Word} {m : BigInt} {k k' : Completion}
    (h : k' = k.withCmds qs) : withModulus m k' = (withModulus m k).withCmds qs := by
  subst h
  unfold withModulus
  repeat' split
  all_goals rfl

theorem withDivisor_withCmds {qs : List Word} {b : BigInt} {k k' : Completion}
    (h : k' = k.withCmds qs) : withDivisor b k' = (withDivisor b k).withCmds qs := by
  subst h
  unfold withDivisor
  split <;> rfl

/-- No command looks at the words queued behind it, or changes them (20_memory.md R50). -/
theorem exec_withCmds {i : Instr} {s t : State} (qs : List Word) (h : exec i s = .next t) :
    exec i (s.withCmds qs) = .next (t.withCmds qs) := by
  cases i
  case clre =>
    obtain rfl := Host.Outcome.next.inj h
    rfl
  all_goals refine Eq.trans (congrArg (complete _ _) ?_) (complete_withCmds h)
  case rdsr idx =>
    change (match statusRegister s idx with | some v => _ | none => _) = _
    cases statusRegister s idx <;> rfl
  all_goals refine whenReady_withCmds ?_
  case nop | beginNum => rfl
  case pushd =>
    refine withOpen_withCmds fun b ds => ?_
    repeat' split
    all_goals rfl
  case endNum =>
    refine withOpen_withCmds fun b ds => ?_
    cases ds <;> rfl
  case seti => exact writeChecked_withCmds ..
  case divmod =>
    split
    · rfl
    · exact withSrc_withCmds fun _ => withSrc_withCmds fun _ => withDivisor_withCmds rfl
  all_goals refine withSrc_withCmds fun _ => ?_
  case mov | neg | len => rfl
  case getd => split <;> rfl
  all_goals refine withSrc_withCmds fun _ => ?_
  case cmp | gcd => rfl
  case add | sub | mul => exact writeChecked_withCmds ..
  case div | rem => exact withDivisor_withCmds rfl
  case modn => exact withModulus_withCmds rfl
  case modinv =>
    refine withModulus_withCmds ?_
    split <;> rfl
  all_goals exact withSrc_withCmds fun _ => withModulus_withCmds rfl

/-- A step on a queued word is the step on that word offered in front of the words behind it. -/
theorem step_queued {s : State} {w : Word} {ws : List Word} (hh : s.host = [])
    (hc : s.cmds = w :: ws) : step s = step (offerNext w (s.withCmds ws)) := by
  simp only [step, nextTurn_command hh hc, nextTurn_offerNext]

/-- The words queued behind a word have no part in its step. -/
theorem step_offerNext_withCmds {s t : State} {w : Word} (qs : List Word)
    (h : step (offerNext w s) = .next t) :
    step (offerNext w (s.withCmds qs)) = .next (t.withCmds qs) := by
  simp only [step, nextTurn_offerNext] at h ⊢
  split at h
  · exact exec_withCmds qs h
  · obtain rfl := Host.Outcome.next.inj h
    rw [rejectWord_withCmds]

/-- The run of two sequences is the run of the second from where the run of the first ends. -/
theorem runWords_append {us vs : List Word} {s u : State} (h : runWords us s = .next u) :
    runWords (us ++ vs) s = runWords vs u := by
  induction us generalizing s with
  | nil =>
    obtain rfl := Host.Outcome.next.inj h
    rfl
  | cons w us ih =>
    simp only [runWords, List.cons_append] at h ⊢
    split at h
    · exact ih h
    all_goals cases h

end Sys2Proof.Machine
end

