-- ==== Sys2Proof/Laws/Step.lean ====
section
/-! SUPPORT. The inversion lemma of step: what the four kinds of a step do, and that picking the turn
changes nothing but the two input queues. -/

namespace Sys2Proof.Machine

/-- All that one step can be: an action of the host, waiting, a decoded command, or a word the decoder
rejects. In each case the state it works on is `s` without what was picked from the queues. -/
theorem step_cases (s : State) : ∃ cs es,
    (∃ e, s.host = e :: es ∧ e ≠ .wait ∧ cs = s.cmds
      ∧ step s = .next (hostAct e { s with cmds := cs, host := es }))
    ∨ (s.cmds = [] ∧ cs = [] ∧ (s.host = es ∨ s.host = .wait :: es)
      ∧ step s = .next { s with cmds := cs, host := es })
    ∨ (∃ w, s.cmds = w :: cs ∧ (s.host = [] ∧ es = [] ∨ s.host = .wait :: es)
      ∧ ((∃ i, decode w = .instr i ∧ step s = exec i { s with cmds := cs, host := es })
        ∨ ∃ why, decode w = .illegal why
          ∧ step s = .next (rejectWord w { s with cmds := cs, host := es }))) := by
  have block : ∀ es, (s.host = [] ∧ es = [] ∨ s.host = .wait :: es) →
      nextTurn s = blockTurn { s with host := es } := by
    rintro es (⟨h, rfl⟩ | h)
    · simp [nextTurn, h]
      rw [← h]
    · simp [nextTurn, h]
  have turn : ∀ es, (s.host = [] ∧ es = [] ∨ s.host = .wait :: es) → ∃ cs,
      (s.cmds = [] ∧ cs = [] ∧ (s.host = es ∨ s.host = .wait :: es)
        ∧ step s = .next { s with cmds := cs, host := es })
      ∨ (∃ w, s.cmds = w :: cs ∧ (s.host = [] ∧ es = [] ∨ s.host = .wait :: es)
        ∧ ((∃ i, decode w = .instr i ∧ step s = exec i { s with cmds := cs, host := es })
          ∨ ∃ why, decode w = .illegal why
            ∧ step s = .next (rejectWord w { s with cmds := cs, host := es }))) := by
    intro es h
    have hb := block es h
    cases hc : s.cmds with
    | nil =>
      refine ⟨[], .inl ⟨rfl, rfl, h.imp (fun x => x.1.trans x.2.symm) id, ?_⟩⟩
      simp only [step, hb, blockTurn, hc]
    | cons w ws =>
      refine ⟨ws, .inr ⟨w, rfl, h, ?_⟩⟩
      simp only [step, hb, blockTurn, hc]
      cases decode w with
      | instr i => exact .inl ⟨i, rfl, rfl⟩
      | illegal why => exact .inr ⟨why, rfl, rfl⟩
  cases hh : s.host with
  | nil =>
    obtain ⟨cs, h⟩ := turn [] (.inl ⟨hh, rfl⟩)
    rw [hh] at h
    exact ⟨cs, [], .inr h⟩
  | cons e es =>
    by_cases he : e = .wait
    · subst he
      obtain ⟨cs, h⟩ := turn es (.inr hh)
      rw [hh] at h
      exact ⟨cs, es, .inr h⟩
    · refine ⟨s.cmds, es, .inl ⟨e, rfl, he, rfl, ?_⟩⟩
      cases e <;> simp_all [step, nextTurn]

end Sys2Proof.Machine
end

