-- ==== Sys2Proof/Tests/Slice0.lean ====
section
/-! SUPPORT. The model's own tests: the words of spec/ read by the decoder, the ill-formed term refused,
one worked example of the spec per command (the examples of the command rules and 95_test_vectors.md),
and, for every obligation with hypotheses, a state and operands that meet them (a theorem per clause
where it has several). -/

namespace Sys2Proof.Tests

open Sys2Proof Sys2Proof.Machine

/-! ### Helpers -/

/-- The Valid register content of an integer. -/
def num (z : Int) : RegState := .valid (big z)

/-- A state with the default MAXD, the given mode and the given registers. -/
def stateWith (m : Mode) (regs : List (RegId × RegState)) : State :=
  regs.foldl (fun s p => s.setReg p.1 p.2) { State.reset with mode := m }

/-- A Ready state with the given integers in registers. -/
def ready (regs : List (RegId × Int)) : State :=
  stateWith .ready (regs.map fun p => (p.1, num p.2))

/-- A Halted state, as a division by zero leaves it. -/
def halted : State :=
  { State.reset with mode := .halted, ecode := 0x02, ecmd := 0x30123000 }

/-- The state with the given words offered. -/
def offered (s : State) (ws : List Word) : State := { s with cmds := ws }

/-- The state with another MAXD. -/
def withMaxd (n : Nat) (s : State) : State := { s with cfg := { maxd := n } }

/-- The next state. -/
def after : Host.Outcome State Fault Refusal → Option State
  | .next t => some t
  | .fault _ => none
  | .refused _ => none

/-- The last response. -/
def answer (o : Host.Outcome State Fault Refusal) : Option Word :=
  (after o).bind fun t => t.resps.getLast?

/-- A register of the next state. -/
def held (o : Host.Outcome State Fault Refusal) (r : RegId) : Option RegState :=
  (after o).map fun t => t.reg r

/-- The error record of the next state. -/
def record (o : Host.Outcome State Fault Refusal) : Option (Mode × Byte × Word) :=
  (after o).map fun t => (t.mode, t.ecode, t.ecmd)

/-! ### Decoding: words of 30_encoding.md R70, of the command rules and of 95_test_vectors.md -/

theorem test_decode_nop : decode 0x00000000 = .instr .nop := by decide
theorem test_decode_clre : decode 0x01000000 = .instr .clre := by decide
theorem test_decode_rdsr : decode 0x02000003 = .instr (.rdsr 3) := by decide
theorem test_decode_begin : decode 0x08300001 = .instr (.beginNum 3 true) := by decide
theorem test_decode_pushd : decode 0x09300009 = .instr (.pushd 3 9) := by decide
theorem test_decode_end : decode 0x0A300000 = .instr (.endNum 3) := by decide
theorem test_decode_seti : decode 0x0B10FFF9 = .instr (.seti 1 0xFFF9) := by decide
theorem test_decode_mov : decode 0x0C120000 = .instr (.mov 1 2) := by decide
theorem test_decode_neg : decode 0x0D120000 = .instr (.neg 1 2) := by decide
theorem test_decode_len : decode 0x0E010000 = .instr (.len 1) := by decide
theorem test_decode_getd : decode 0x0F020002 = .instr (.getd 2 2) := by decide
theorem test_decode_cmp : decode 0x10012000 = .instr (.cmp 1 2) := by decide
theorem test_decode_add : decode 0x20123000 = .instr (.add 1 2 3) := by decide
theorem test_decode_sub : decode 0x21123000 = .instr (.sub 1 2 3) := by decide
theorem test_decode_mul : decode 0x28123000 = .instr (.mul 1 2 3) := by decide
theorem test_decode_div : decode 0x30123000 = .instr (.div 1 2 3) := by decide
theorem test_decode_rem : decode 0x31123000 = .instr (.rem 1 2 3) := by decide
theorem test_decode_divmod : decode 0x32134200 = .instr (.divmod 1 3 4 2) := by decide
theorem test_decode_modn : decode 0x38120300 = .instr (.modn 1 2 3) := by decide
theorem test_decode_modmul : decode 0x39123400 = .instr (.modmul 1 2 3 4) := by decide
theorem test_decode_modexp : decode 0x40012300 = .instr (.modexp 0 1 2 3) := by decide
theorem test_decode_gcd : decode 0x48123000 = .instr (.gcd 1 2 3) := by decide
theorem test_decode_modinv : decode 0x49120300 = .instr (.modinv 1 2 3) := by decide

/-- R63: the first and the last reserved opcode. -/
theorem test_decode_reserved_opcode :
    decode 0x03000000 = .illegal .reservedOpcode ∧ decode 0xFF000000 = .illegal .reservedOpcode := by
  decide

/-- The four examples of R64. -/
theorem test_decode_reserved_bits :
    decode 0x20123001 = .illegal .reservedBits ∧ decode 0x20923000 = .illegal .reservedBits
      ∧ decode 0x00000001 = .illegal .reservedBits ∧ decode 0x08300002 = .illegal .reservedBits := by
  decide

/-- R66: the one ill-formed term is refused by the check, by the decoder and by its meaning. -/
theorem test_wf_refuses_same_destination :
    (Instr.divmod 1 2 3 1).wf = false
      ∧ decode (encode (.divmod 1 2 3 1)) = .illegal .sameDestination
      ∧ answer (exec (.divmod 1 2 3 1) (ready [(2, 7), (3, 2)])) = some 0x07000000 := by decide

theorem test_wf_accepts_shared_sources :
    (Instr.divmod 1 1 1 2).wf = true ∧ (Instr.modexp 1 1 1 1).wf = true := by decide

theorem test_decodeTableWord :
    decodeTableWord 32 0x20123000 = some (.add 1 2 3) ∧ decodeTableWord 32 0x20123001 = none := by
  decide

/-! ### One step of every command -/

theorem test_nop : answer (exec .nop (ready [])) = some 0x00000000 := by decide

theorem test_clre : answer (exec .clre halted) = some 0x00000000
    ∧ record (exec .clre halted) = some (.ready, 0, 0) := by decide

theorem test_rdsr_id_and_maxd : answer (exec (.rdsr 0) (ready [])) = some 0x00000415
    ∧ answer (exec (.rdsr 3) (ready [])) = some 0x00000400 := by decide

theorem test_rdsr_halted : answer (exec (.rdsr 4) halted) = some 0x00000001
    ∧ answer (exec (.rdsr 7) halted) = some 0x00003012
    ∧ answer (exec (.rdsr 10) halted) = some 0x07000000 := by decide

theorem test_begin : answer (exec (.beginNum 3 true) (ready [(3, 5)])) = some 0x00000000
    ∧ held (exec (.beginNum 3 true) (ready [(3, 5)])) 3 = some (.opened true []) := by decide

theorem test_pushd :
    answer (exec (.pushd 3 9) (stateWith .ready [(3, .opened true [])])) = some 0x00000001
      ∧ held (exec (.pushd 3 9) (stateWith .ready [(3, .opened true [])])) 3
        = some (.opened true [9]) := by decide

/-- R203: on a full register a bad code is ERR_FORMAT, a good one ERR_OVERFLOW. -/
theorem test_pushd_full :
    answer (exec (.pushd 3 255) (withMaxd 1 (stateWith .ready [(3, .opened true [7])])))
        = some 0x01000000
      ∧ answer (exec (.pushd 3 7) (withMaxd 1 (stateWith .ready [(3, .opened true [7])])))
        = some 0x04000000 := by decide

theorem test_end : answer (exec (.endNum 3) (stateWith .ready [(3, .opened true [0, 0, 7])]))
      = some 0x00060001
    ∧ held (exec (.endNum 3) (stateWith .ready [(3, .opened true [0, 0, 7])])) 3
      = some (.valid { neg := true, digits := [7] }) := by decide

theorem test_end_minus_zero :
    held (exec (.endNum 3) (stateWith .ready [(3, .opened true [0, 0])])) 3
      = some (.valid { neg := false, digits := [0] }) := by decide

theorem test_seti : answer (exec (.seti 1 0xFFF9) (ready [])) = some 0x00060001
    ∧ held (exec (.seti 1 0x8000) (ready [])) 1
      = some (.valid { neg := true, digits := [8, 6, 7, 2, 3] }) := by decide

theorem test_mov : answer (exec (.mov 1 2) (ready [(2, 123)])) = some 0x00040003
    ∧ held (exec (.mov 1 2) (ready [(2, 123)])) 1
      = some (.valid { neg := false, digits := [3, 2, 1] }) := by decide

theorem test_neg : answer (exec (.neg 1 2) (ready [(2, 123)])) = some 0x00060003
    ∧ held (exec (.neg 1 2) (ready [(2, 0)])) 1
      = some (.valid { neg := false, digits := [0] }) := by decide

theorem test_len : answer (exec (.len 1) (ready [(1, -7)])) = some 0x00060001 := by decide

theorem test_getd : answer (exec (.getd 2 0) (ready [(2, 123)])) = some 0x00000003
    ∧ answer (exec (.getd 2 2) (ready [(2, 123)])) = some 0x00000001
    ∧ answer (exec (.getd 2 3) (ready [(2, 123)])) = some 0x05000000 := by decide

theorem test_cmp : answer (exec (.cmp 1 2) (ready [(1, -5), (2, -3)])) = some 0x0000FFFF
    ∧ answer (exec (.cmp 1 2) (ready [(1, 10), (2, 9)])) = some 0x00000001 := by decide

theorem test_add : answer (exec (.add 1 2 3) (ready [(2, 999), (3, 1)])) = some 0x00000004
    ∧ held (exec (.add 1 2 3) (ready [(2, 999), (3, 1)])) 1
      = some (.valid { neg := false, digits := [0, 0, 0, 1] }) := by decide

/-- R16, R196: the destination may be a source, and an overflow writes nothing. -/
theorem test_add_same_register_and_overflow :
    held (exec (.add 1 1 1) (ready [(1, 45)])) 1 = some (num 90)
      ∧ answer (exec (.add 1 1 1) (withMaxd 1 (ready [(1, 5)]))) = some 0x04000000
      ∧ held (exec (.add 1 1 1) (withMaxd 1 (ready [(1, 5)]))) 1 = some (num 5) := by decide

theorem test_sub : answer (exec (.sub 1 2 3) (ready [(2, 5), (3, 7)])) = some 0x00020001
    ∧ held (exec (.sub 1 2 3) (ready [(2, 1000), (3, 1)])) 1
      = some (.valid { neg := false, digits := [9, 9, 9] }) := by decide

theorem test_mul : answer (exec (.mul 1 2 3) (ready [(2, -12), (3, 34)])) = some 0x00020003
    ∧ held (exec (.mul 1 2 3) (ready [(2, -12), (3, 34)])) 1
      = some (.valid { neg := true, digits := [8, 0, 4] }) := by decide

theorem test_div : answer (exec (.div 1 2 3) (ready [(2, -7), (3, 2)])) = some 0x00060001
    ∧ held (exec (.div 1 2 3) (ready [(2, -7), (3, 2)])) 1 = some (num (-3))
    ∧ answer (exec (.div 1 2 3) (ready [(2, 0), (3, 0)])) = some 0x02000000 := by decide

theorem test_rem : answer (exec (.rem 1 2 3) (ready [(2, -7), (3, -2)])) = some 0x00040001
    ∧ held (exec (.rem 1 2 3) (ready [(2, 7), (3, -2)])) 1 = some (num (-1))
    ∧ held (exec (.rem 1 2 3) (ready [(2, -6), (3, 3)])) 1 = some (num 0) := by decide

theorem test_divmod :
    answer (exec (.divmod 1 3 4 2) (ready [(3, 7), (4, -2)])) = some 0x00060001
      ∧ held (exec (.divmod 1 3 4 2) (ready [(3, 7), (4, -2)])) 1 = some (num (-3))
      ∧ held (exec (.divmod 1 3 4 2) (ready [(3, 7), (4, -2)])) 2 = some (num (-1)) := by decide

theorem test_modn : answer (exec (.modn 1 2 3) (ready [(2, -7), (3, 5)])) = some 0x00040001
    ∧ held (exec (.modn 1 2 3) (ready [(2, -7), (3, 5)])) 1 = some (num 3)
    ∧ answer (exec (.modn 1 2 3) (ready [(2, -7), (3, -5)])) = some 0x05000000 := by decide

/-- R157 and R34: the product of two one-digit numbers is reduced, not refused, with MAXD = 1. -/
theorem test_modmul : held (exec (.modmul 1 2 3 4) (ready [(2, -7), (3, 8), (4, 5)])) 1 = some (num 4)
    ∧ held (exec (.modmul 1 2 3 4) (withMaxd 1 (ready [(2, 7), (3, 8), (4, 9)]))) 1
      = some (num 2) := by decide

theorem test_modexp :
    answer (exec (.modexp 0 1 2 3) (ready [(1, 4), (2, 13), (3, 497)])) = some 0x00040003
      ∧ held (exec (.modexp 0 1 2 3) (ready [(1, 4), (2, 13), (3, 497)])) 0 = some (num 445) := by
  decide +kernel

/-- R167: exponent 0 and a negative exponent; modulus 1. -/
theorem test_modexp_corners :
    held (exec (.modexp 0 1 2 3) (ready [(1, -5), (2, 0), (3, 7)])) 0 = some (num 1)
      ∧ held (exec (.modexp 0 1 2 3) (ready [(1, 5), (2, -3), (3, 7)])) 0 = some (num 1)
      ∧ held (exec (.modexp 0 1 2 3) (ready [(1, 5), (2, 0), (3, 1)])) 0 = some (num 0) := by
  decide

theorem test_gcd : answer (exec (.gcd 1 2 3) (ready [(2, 3), (3, 13000)])) = some 0x00040001
    ∧ held (exec (.gcd 1 2 3) (ready [(2, -12), (3, 18)])) 1 = some (num 6)
    ∧ held (exec (.gcd 1 2 3) (ready [(2, 0), (3, 0)])) 1 = some (num 0) := by decide +kernel

theorem test_modinv : answer (exec (.modinv 1 2 3) (ready [(2, 3), (3, 13000)])) = some 0x00040004
    ∧ held (exec (.modinv 1 2 3) (ready [(2, 3), (3, 13000)])) 1 = some (num 8667)
    ∧ answer (exec (.modinv 1 2 3) (ready [(2, 2), (3, 4)])) = some 0x03000000 := by decide +kernel

/-! ### The step -/

theorem test_fetch_runs_first :
    answer (step (State.reset.withFetchWord 32 0x02000000)) = some 0x00000415
      ∧ (after (step (State.reset.withFetchWord 32 0x02000000))).map (fun t => (t.cmds, t.host))
        = some ([], []) := by decide

theorem test_illegal_word_latches :
    record (step (State.reset.withFetchWord 32 0x20123001)) = some (.halted, 0x07, 0x20123001) := by
  decide

/-- R205: an illegal CLRE word in Halted answers ERR_ILLEGAL and keeps the first error. -/
theorem test_illegal_clre_in_halted :
    answer (step (halted.withFetchWord 32 0x01000001)) = some 0x07000000
      ∧ record (step (halted.withFetchWord 32 0x01000001)) = some (.halted, 0x02, 0x30123000) := by
  decide

/-- R201: an illegal word with another opcode answers ERR_HALTED in Halted. -/
theorem test_illegal_word_in_halted :
    answer (step (halted.withFetchWord 32 0xFF000000)) = some 0x08000000 := by decide

/-- R215: reset drops what is queued. -/
theorem test_reset_event :
    after (step { offered halted [0x00000000] with resps := [0x02000000], host := [.reset] })
      = some State.reset := by decide

/-! ### A state and operands meeting the hypotheses of every obligation that has some -/

/-- Three registers Valid, one Open, the rest Invalid. -/
def mixed : State :=
  stateWith .ready [(1, num 17), (2, num (-5)), (3, num 7), (4, .opened true [1, 2])]

theorem witness_LegalWordIsItsCommandsEncoding : decode 0x32134200 = .instr (.divmod 1 3 4 2) := by
  decide

/-- Both ends of every range of R63. -/
theorem witness_ReservedOpcodesAreIllegal :
    [0x03, 0x07, 0x11, 0x1F, 0x22, 0x27, 0x29, 0x2F, 0x33, 0x37, 0x3A, 0x3F, 0x41, 0x47, 0x4A,
      0xFF].all (fun n : Nat =>
        let op := (opField (BitVec.ofNat 32 (n * 2 ^ 24 + 5))).toNat
        decide ((0x03 ≤ op ∧ op ≤ 0x07) ∨ (0x11 ≤ op ∧ op ≤ 0x1F) ∨ (0x22 ≤ op ∧ op ≤ 0x27)
          ∨ (0x29 ≤ op ∧ op ≤ 0x2F) ∨ (0x33 ≤ op ∧ op ≤ 0x37) ∨ (0x3A ≤ op ∧ op ≤ 0x3F)
          ∨ (0x41 ≤ op ∧ op ≤ 0x47) ∨ 0x4A ≤ op)) = true
      ∧ (offered mixed [0x03000005]).host = [] ∧ (offered mixed [0x03000005]).mode = .ready
      ∧ (offered halted [0x03000005]).host = [] ∧ (offered halted [0x03000005]).mode = .halted := by
  decide

/-- The examples of R64: a zero field and the top bit of a register field. -/
theorem witness_MustBeZeroBitsAreChecked :
    (∃ r ∈ opcodeRows, opField 0x20123001 = opField r.pattern ∧ 0x20123001 &&& r.mask ≠ r.pattern)
      ∧ (∃ r ∈ opcodeRows, opField 0x20923000 = opField r.pattern
        ∧ 0x20923000 &&& r.mask ≠ r.pattern)
      ∧ (offered mixed [0x20123001]).host = [] ∧ (offered mixed [0x20123001]).mode = .ready := by
  decide

theorem witness_DivmodNeedsTwoDestinations : mixed.mode = .ready
    ∧ (offered mixed [encode (.divmod 1 2 3 1)]).mode = .ready
    ∧ (offered mixed [encode (.divmod 1 2 3 1)]).host = []
    ∧ (offered mixed [encode (.divmod 1 2 3 1)]).cmds = encode (.divmod 1 2 3 1) :: []
    ∧ ¬∃ rd ra rb, Instr.divmod 1 3 4 2 = .divmod rd ra rb rd := by
  refine ⟨by decide, by decide, by decide, by decide, ?_⟩
  rintro ⟨rd, ra, rb, h⟩
  simp only [Instr.divmod.injEq] at h
  exact absurd (h.1.trans h.2.2.2.symm) (by decide)

theorem witness_FlagsDescribeTheValue : (big 0).canonical = true ∧ (big (-7)).canonical = true := by
  decide

theorem witness_StepRunsTheDecodedCommand :
    (offered mixed [0x20123000]).cmds = 0x20123000 :: [] ∧ decode 0x20123000 = .instr (.add 1 2 3)
      ∧ (offered mixed [0x20123000]).host = []
      ∧ { offered mixed [0x20123000] with host := [.wait, .take] }.host = .wait :: [.take] := by
  decide

theorem witness_EveryCommandAnswersOnce :
    (offered mixed [0x20123000, 0xFF000000]).host = []
      ∧ (offered mixed [0x20123000, 0xFF000000]).cmds = 0x20123000 :: [0xFF000000] := by decide

theorem witness_HostActionsAndReset :
    { mixed with host := [.reset, .take] }.host = .reset :: [.take]
      ∧ { mixed with host := [.issue 0x00000000] }.host = .issue 0x00000000 :: []
      ∧ { mixed with host := [.take], resps := [0, 1] }.host = .take :: []
      ∧ { mixed with host := [.take], resps := [0, 1] }.resps = 0 :: [1]
      ∧ { mixed with host := [.take] }.resps = [] := by decide

theorem witness_IdleBlockChangesNothing : mixed.cmds = [] ∧ mixed.host = []
    ∧ { mixed with host := [.wait] }.host = .wait :: [] := by decide

/-- A word that raises a status from Ready, and one in Halted. -/
theorem witness_ErrorLatchesAndChangesNothingElse :
    (∃ t, step (offered mixed [0x30100000]) = .next t
        ∧ t.resps = (offered mixed [0x30100000]).resps ++ [0x06000000])
      ∧ (offered mixed [0x30100000]).mode = .ready
      ∧ (∃ t, step (offered halted [0x00000000]) = .next t
        ∧ t.resps = (offered halted [0x00000000]).resps ++ [0x08000000])
      ∧ halted.mode = .halted ∧ respStatus 0x06000000 ≠ 0 ∧ respStatus 0x08000000 ≠ 0 :=
  ⟨⟨_, rfl, by decide⟩, by decide, ⟨_, rfl, by decide⟩, by decide, by decide, by decide⟩

theorem witness_HaltedBlockRefusesOtherWords :
    (offered halted [0x00000000]).cmds = 0x00000000 :: [] ∧ halted.mode = .halted
      ∧ opField 0x00000000 ≠ 0x01 ∧ opField 0x00000000 ≠ 0x02 ∧ opField 0x03FFFFFF ≠ 0x02 := by
  decide

/-- The exact CLRE; an illegal CLRE word; RDSR words at the first reserved index and with a must-be-zero
bit. -/
theorem witness_ErrorRecordKeepsTheFirstError :
    (∃ t, step (offered halted [0x01000000]) = .next t)
      ∧ (∃ t, step (offered halted [0x01000001]) = .next t)
      ∧ (∃ t, step (offered halted [0x0200000A]) = .next t)
      ∧ halted.mode = .halted ∧ halted.host = []
      ∧ (opField 0x01000001 = 0x01 ∧ (0x01000001 : Word) ≠ 0x01000000)
      ∧ (opField 0x0200000A = 0x02 ∧ 0x02000009 < (0x0200000A : Word).toNat)
      ∧ (opField 0x02000100 = 0x02 ∧ 0x02000009 < (0x02000100 : Word).toNat) :=
  ⟨⟨_, rfl⟩, ⟨_, rfl⟩, ⟨_, rfl⟩, by decide, by decide, by decide, by decide, by decide⟩

/-- An OK word and an error word from Ready, CLRE and another word in Halted, and every host action. -/
theorem witness_ModeMovesOnlyOnErrorClreAndReset :
    (∃ t, step (offered mixed [0x00000000]) = .next t ∧ t.resps = mixed.resps ++ [0x00000000])
      ∧ (∃ t, step (offered mixed [0x30100000]) = .next t ∧ t.resps = mixed.resps ++ [0x06000000])
      ∧ (∃ t, step (offered halted [0x01000000]) = .next t
        ∧ t.resps = halted.resps ++ [0x00000000])
      ∧ (∃ t, step (offered halted [0x00000000]) = .next t
        ∧ t.resps = halted.resps ++ [0x08000000])
      ∧ mixed.mode = .ready ∧ halted.mode = .halted
      ∧ (∃ t, step { halted with host := [.reset] } = .next t)
      ∧ (∃ t, step { halted with host := [.take] } = .next t) :=
  ⟨⟨_, rfl, by decide⟩, ⟨_, rfl, by decide⟩, ⟨_, rfl, by decide⟩, ⟨_, rfl, by decide⟩, by decide,
    by decide, ⟨_, rfl⟩, ⟨_, rfl⟩⟩

/-- Two words that do not run, in front of the CLRE that is not among them. -/
theorem witness_QueuedCommandsDoNotRunWhileHalted : halted.mode = .halted
    ∧ (∀ w ∈ ([0x20123000, 0xFF000000] : List Word), opField w ≠ 0x01 ∧ opField w ≠ 0x02)
    ∧ (offered halted [0x20123000, 0xFF000000, 0x01000000]).mode = .halted
    ∧ (offered halted [0x20123000, 0xFF000000, 0x01000000]).host = []
    ∧ (offered halted [0x20123000, 0xFF000000, 0x01000000]).cmds
      = [0x20123000, 0xFF000000] ++ [0x01000000] := by
  refine ⟨by decide, ?_, by decide, by decide, by decide⟩
  simp [opField]

/-- One command and state for each status. -/
theorem witness_StatusesRaisedByTheirCommandsOnly :
    (∃ t, exec (.pushd 4 10) mixed = .next t ∧ t.resps = mixed.resps ++ [errResponse .format])
      ∧ (∃ t, exec (.div 1 2 5) (mixed.setReg 5 (num 0)) = .next t
        ∧ t.resps = mixed.resps ++ [errResponse .divzero])
      ∧ (∃ t, exec (.modinv 1 1 2) (ready [(1, 2), (2, 4)]) = .next t
        ∧ t.resps = (ready [(1, 2), (2, 4)]).resps ++ [errResponse .notCoprime])
      ∧ (∃ t, exec (.add 1 1 1) (withMaxd 1 (ready [(1, 5)])) = .next t
        ∧ t.resps = mixed.resps ++ [errResponse .overflow])
      ∧ (∃ t, exec (.getd 1 2) mixed = .next t ∧ t.resps = mixed.resps ++ [errResponse .domain])
      ∧ (∃ t, exec (.mov 1 0) mixed = .next t ∧ t.resps = mixed.resps ++ [errResponse .reg])
      ∧ (∃ t, exec (.rdsr 10) mixed = .next t ∧ t.resps = mixed.resps ++ [errResponse .illegal])
      ∧ (∃ t, exec .nop halted = .next t ∧ t.resps = halted.resps ++ [errResponse .halted]) :=
  ⟨⟨_, rfl, by decide⟩, ⟨_, rfl, by decide⟩, ⟨_, rfl, by decide⟩, ⟨_, rfl, by decide⟩,
    ⟨_, rfl, by decide⟩, ⟨_, rfl, by decide⟩, ⟨_, rfl, by decide⟩, ⟨_, rfl, by decide⟩⟩

/-- An Invalid and an Open source, and a Valid target of PUSHD and END. -/
theorem witness_WrongRegisterStateRaisesErrReg : mixed.mode = .ready
    ∧ (Instr.add 1 2 0).wf = true ∧ (∃ r ∈ sources (.add 1 2 0), (mixed.reg r).isValid = false)
    ∧ (∃ r ∈ sources (.modexp 1 2 3 4), (mixed.reg r).isValid = false)
    ∧ (mixed.reg 1).isOpen = false ∧ (mixed.reg 0).isOpen = false := by decide

theorem witness_UnreadRegistersDoNotMatter : (1 : RegId) ∉ sources (.add 1 2 3)
    ∧ (∀ idx, Instr.add 1 2 3 ≠ .rdsr idx) ∧ (∀ c, Instr.add 1 2 3 ≠ .pushd 1 c)
    ∧ Instr.add 1 2 3 ≠ .endNum 1 := by simp [sources]

theorem witness_ResetStateMeetsTheInvariant :
    ({ maxd := 1 } : Config).wf = true ∧ ({ maxd := 65535 } : Config).wf = true := by decide

/-- From Ready by a command, and from Halted by the host's reset. -/
theorem witness_StepKeepsTheInvariant :
    (offered mixed [0x28123000]).wf = true ∧ (∃ t, step (offered mixed [0x28123000]) = .next t)
      ∧ { halted with host := [.reset] }.wf = true
      ∧ (∃ t, step { halted with host := [.reset] } = .next t) :=
  ⟨by decide, ⟨_, rfl⟩, by decide, ⟨_, rfl⟩⟩

theorem witness_NoCommandMakesARegisterInvalid :
    (∀ es, (offered mixed [0x0A400000]).host ≠ .reset :: es)
      ∧ (∃ t, step (offered mixed [0x0A400000]) = .next t)
      ∧ (offered mixed [0x0A400000]).reg 4 ≠ .invalid :=
  ⟨fun _ h => List.cons_ne_nil _ _ h.symm, ⟨_, rfl⟩, by decide⟩

theorem witness_ReadOnlyCommandsFrame : (∃ t, exec .nop mixed = .next t)
    ∧ (∃ t, exec (.rdsr 8) mixed = .next t) ∧ (∃ t, exec (.len 1) mixed = .next t)
    ∧ (∃ t, exec (.getd 1 1) mixed = .next t) ∧ (∃ t, exec (.cmp 1 2) mixed = .next t) :=
  ⟨⟨_, rfl⟩, ⟨_, rfl⟩, ⟨_, rfl⟩, ⟨_, rfl⟩, ⟨_, rfl⟩⟩

/-- A command that writes, one that raises a status, and one in Halted. -/
theorem witness_OneDestinationCommandsFrame : destinations (.mul 1 2 3) = [1]
    ∧ (∃ t, exec (.mul 1 2 3) mixed = .next t) ∧ (∃ t, exec (.mul 1 2 0) mixed = .next t)
    ∧ (∃ t, exec (.mul 1 2 3) halted = .next t) := ⟨rfl, ⟨_, rfl⟩, ⟨_, rfl⟩, ⟨_, rfl⟩⟩

theorem witness_DivmodAndClreFrame : (∃ t, exec (.divmod 5 1 2 6) mixed = .next t)
    ∧ (∃ t, exec .clre halted = .next t) := ⟨⟨_, rfl⟩, ⟨_, rfl⟩⟩

theorem witness_NopAndClreComplete : mixed.mode = .ready ∧ halted.mode = .halted := by decide

/-- The last status register and the first reserved index. -/
theorem witness_RdsrReadsTheStatusRegisters :
    (9 : Byte).toNat ≤ 9 ∧ (0 : Byte).toNat ≤ 9 ∧ 9 < (10 : Byte).toNat ∧ 9 < (255 : Byte).toNat
      ∧ mixed.mode = .ready ∧ halted.mode = .halted := by decide

theorem witness_BeginOpensTheRegister : mixed.mode = .ready ∧ halted.mode = .halted := by decide

/-- The first code that is no digit and the last digit; a register one digit below MAXD and a full one; a
register that is not Open; a Halted block. -/
theorem witness_PushdAppendsTheDigit : mixed.mode = .ready ∧ mixed.reg 4 = .opened true [1, 2]
    ∧ 9 < (10 : Byte).toNat ∧ (9 : Byte).toNat = (9 : Digit).val
    ∧ [(1 : Digit), 2].length = (withMaxd 2 mixed).cfg.maxd
    ∧ [(1 : Digit), 2].length ≠ (withMaxd 3 mixed).cfg.maxd
    ∧ (mixed.reg 1).isOpen = false ∧ halted.mode = .halted := by decide

theorem witness_EndCanonicalisesTheDigits : mixed.mode = .ready
    ∧ mixed.reg 4 = .opened true [1, 2] ∧ [(1 : Digit), 2] ≠ []
    ∧ (mixed.setReg 5 (.opened false [])).reg 5 = .opened false []
    ∧ (mixed.reg 1).isOpen = false ∧ halted.mode = .halted := by decide

/-- With one digit, 9 fits and 10 does not. -/
theorem witness_SetiWritesTheImmediate : (withMaxd 1 mixed).cfg.wf = true
    ∧ (withMaxd 1 mixed).mode = .ready
    ∧ (9 : Half).toInt.natAbs < 10 ^ (withMaxd 1 mixed).cfg.maxd
    ∧ 10 ^ (withMaxd 1 mixed).cfg.maxd ≤ (10 : Half).toInt.natAbs
    ∧ halted.mode = .halted := by decide

theorem digits_of_texts : (∀ c ∈ afterMinus ['-', '0', '4', '2'], isDigitChar c = true)
    ∧ (∀ c ∈ ['4', '2'], isDigitChar c = true)
    ∧ (∀ c ∈ afterMinus ['-', '1', '0'], isDigitChar c = true)
    ∧ (∀ c ∈ afterMinus ['0'], isDigitChar c = true) := by
  simp [afterMinus, hasMinus, isDigitChar]

/-- A text of exactly MAXD digits. -/
theorem witness_ParseReadsTheDecimalText : (withMaxd 3 mixed).mode = .ready
    ∧ (withMaxd 3 mixed).cfg.wf = true ∧ afterMinus ['-', '0', '4', '2'] ≠ []
    ∧ (afterMinus ['-', '0', '4', '2']).length ≤ (withMaxd 3 mixed).cfg.maxd
    ∧ (∀ c ∈ afterMinus ['-', '0', '4', '2'], isDigitChar c = true) :=
  ⟨by decide, by decide, by decide, by decide, digits_of_texts.1⟩

/-- No digits; a bad character after MAXD digits; a digit after MAXD digits. -/
theorem witness_ParseRejectsOtherTexts : (withMaxd 2 mixed).mode = .ready
    ∧ (withMaxd 2 mixed).cfg.wf = true ∧ afterMinus ['-'] = []
    ∧ afterMinus ['4', '2', '+', '1'] = ['4', '2'] ++ '+' :: ['1']
    ∧ isDigitChar '+' = false ∧ ['4', '2'].length ≤ (withMaxd 2 mixed).cfg.maxd
    ∧ afterMinus ['-', '4', '2', '0'] = ['4', '2'] ++ '0' :: [] ∧ isDigitChar '0' = true
    ∧ ['4', '2'].length = (withMaxd 2 mixed).cfg.maxd
    ∧ (∀ x ∈ ['4', '2'], isDigitChar x = true) :=
  ⟨by decide, by decide, by decide, by decide, by decide, by decide, by decide, by decide,
    by decide, digits_of_texts.2.1⟩

theorem witness_FormatReadsTheDigitsBack : mixed.mode = .ready ∧ mixed.reg 2 = .valid (big (-5))
    ∧ (big (-5)).canonical = true ∧ (big (-5)).len ≤ 65535 := by decide

/-- A negative text and the text of zero. -/
theorem witness_ParseThenFormatGivesTheTextBack : mixed.mode = .ready ∧ mixed.cfg.wf = true
    ∧ afterMinus ['-', '1', '0'] ≠ [] ∧ (afterMinus ['-', '1', '0']).length ≤ mixed.cfg.maxd
    ∧ (afterMinus ['-', '1', '0']).head? ≠ some '0' ∧ (afterMinus ['0']).head? = some '0'
    ∧ (∀ c ∈ afterMinus ['-', '1', '0'], isDigitChar c = true)
    ∧ (∀ c ∈ afterMinus ['0'], isDigitChar c = true) :=
  ⟨by decide, by decide, by decide, by decide, by decide, by decide, digits_of_texts.2.2⟩

theorem witness_MovAndNegWriteTheirResult : mixed.mode = .ready ∧ mixed.reg 2 = .valid (big (-5))
    ∧ (big (-5)).canonical = true := by decide

/-- The last index and the first past the end. -/
theorem witness_LenAndGetdReadTheRegister : mixed.mode = .ready ∧ mixed.reg 1 = .valid (big 17)
    ∧ (big 17).canonical = true ∧ (1 : Half).toNat < (big 17).digits.length
    ∧ (big 17).digits.length ≤ (2 : Half).toNat := by decide

theorem witness_CmpOrdersTheValues : mixed.mode = .ready ∧ mixed.reg 1 = .valid (big 17)
    ∧ mixed.reg 2 = .valid (big (-5)) ∧ (big 17).canonical = true ∧ (big (-5)).canonical = true := by
  decide

/-- With one digit: 4 + 5 and 4 - 5 fit, 5 + 5 and 5 - (-5) do not. -/
theorem witness_AddAndSubAreExact :
    (withMaxd 1 (ready [(1, 4), (2, 5), (3, -5)])).cfg.wf = true
      ∧ (withMaxd 1 (ready [(1, 4), (2, 5), (3, -5)])).reg 2 = .valid (big 5)
      ∧ (withMaxd 1 (ready [(1, 4), (2, 5), (3, -5)])).reg 3 = .valid (big (-5))
      ∧ (big 5).canonical = true ∧ (big (-5)).canonical = true
      ∧ (val (big 4) + val (big 5)).natAbs < 10 ^ 1 ∧ 10 ^ 1 ≤ (val (big 5) + val (big 5)).natAbs
      ∧ (val (big 4) - val (big 5)).natAbs < 10 ^ 1
      ∧ 10 ^ 1 ≤ (val (big 5) - val (big (-5))).natAbs := by decide

/-- With one digit: 3 times 3 fits, 2 times 5 does not. -/
theorem witness_MulIsExact : (withMaxd 1 (ready [(1, 3), (2, 2), (3, 5)])).cfg.wf = true
    ∧ (withMaxd 1 (ready [(1, 3), (2, 2), (3, 5)])).reg 1 = .valid (big 3)
    ∧ (big 3).canonical = true ∧ (val (big 3) * val (big 3)).natAbs < 10 ^ 1
    ∧ 10 ^ 1 ≤ (val (big 2) * val (big 5)).natAbs := by decide

theorem witness_DivRemDivmodResults : mixed.mode = .ready ∧ (5 : RegId) ≠ 6
    ∧ mixed.reg 1 = .valid (big 17) ∧ mixed.reg 2 = .valid (big (-5)) ∧ val (big (-5)) ≠ 0
    ∧ (mixed.setReg 0 (num 0)).reg 0 = .valid (big 0) ∧ val (big 0) = 0
    ∧ (big 17).canonical = true ∧ (big (-5)).canonical = true ∧ (big 0).canonical = true := by decide

/-- A modulus on each side of 0, and 0. -/
theorem witness_ModnAndModmulReduce : mixed.mode = .ready ∧ mixed.reg 1 = .valid (big 17)
    ∧ mixed.reg 2 = .valid (big (-5)) ∧ mixed.reg 3 = .valid (big 7)
    ∧ (big 17).canonical = true ∧ (big (-5)).canonical = true ∧ (big 7).canonical = true
    ∧ 0 < val (big 1) ∧ (big 1).canonical = true ∧ val (big 0) = 0 ∧ (big 0).canonical = true
    ∧ val (big (-1)) < 0 ∧ (big (-1)).canonical = true := by decide

/-- The exponents 1 and 0, and a modulus on each side of 0, and 0. -/
theorem witness_ModexpIsTheResidueOfThePower : mixed.mode = .ready
    ∧ mixed.reg 1 = .valid (big 17) ∧ mixed.reg 2 = .valid (big (-5)) ∧ mixed.reg 3 = .valid (big 7)
    ∧ 1 ≤ val (big 1) ∧ val (big 0) ≤ 0 ∧ 0 < val (big 7) ∧ val (big 0) = 0 ∧ val (big (-5)) < 0
    ∧ (big 17).canonical = true ∧ (big (-5)).canonical = true ∧ (big 7).canonical = true := by decide

theorem witness_GcdIsTheGreatestCommonDivisor : mixed.mode = .ready
    ∧ mixed.reg 1 = .valid (big 17) ∧ mixed.reg 2 = .valid (big (-5))
    ∧ (big 17).canonical = true ∧ (big (-5)).canonical = true := by decide

/-- A coprime pair, a pair that is not, modulus 1, modulus 0 and a negative modulus. -/
theorem witness_ModinvIsTheInverse : mixed.mode = .ready ∧ mixed.reg 1 = .valid (big 17)
    ∧ mixed.reg 3 = .valid (big 7) ∧ (big 17).canonical = true ∧ (big 7).canonical = true
    ∧ 0 < val (big 7) ∧ Int.gcd (val (big 17) % val (big 7)) (val (big 7)) = 1
    ∧ Int.gcd (val (big 6) % val (big 4)) (val (big 4)) ≠ 1
    ∧ Int.gcd (val (big 6) % val (big 1)) (val (big 1)) = 1
    ∧ val (big 0) = 0 ∧ val (big (-5)) < 0 := by decide

theorem witness_CanonicalBigIntsAreTheIntegers : (big (-120)).canonical = true
    ∧ ([0, 0] : List Digit) ≠ [] := by decide

theorem witness_ComparatorsOrderCanonicalOperands :
    (big (-120)).canonical = true ∧ (big 0).canonical = true := by decide

theorem witness_AdderCarryChain : (big 999).canonical = true ∧ (big 1).canonical = true := by decide

/-- Equal magnitudes and a borrow through every position. -/
theorem witness_SubtractorBorrowChain : mag [9, 9, 9] ≤ mag [0, 0, 0, 1] ∧ mag [7] ≤ mag [7] := by
  decide

theorem witness_RestoringDividerDivides : (big 1000).canonical = true ∧ (big 7).canonical = true
    ∧ mag (big 7).digits ≠ 0 := by decide

/-- A negative divisor, a positive one and 2. -/
theorem witness_DivisionLaws : (big 17).canonical = true ∧ (big (-5)).canonical = true
    ∧ val (big (-5)) ≠ 0 ∧ (big 7).neg = false ∧ 0 ≤ val (big 17) ∧ val (big 2) = 2 := by decide

theorem witness_RingLaws : (big 17).canonical = true ∧ (big (-5)).canonical = true
    ∧ (big 0).canonical = true := by decide

theorem witness_ReductionLaws : (big 17).canonical = true ∧ (big (-5)).canonical = true
    ∧ (big 1).canonical = true ∧ 0 < val (big 1) := by decide

/-- A run cut after its first word, with a word waiting and no action of the host to come. -/
theorem witness_RunAnswersEveryWordInOrder :
    ([0x20123000, 0xFF000000] : List Word) = [0x20123000] ++ [0xFF000000]
      ∧ (offered mixed [0x01000000]).host = []
      ∧ (offered mixed [0x01000000]).cmds = [0x01000000] := by decide

end Sys2Proof.Tests
end

section
/-! SUPPORT. Proofs for 00_scope.md: the correspondence of canonical BigInts and integers (R14), and the
invariant at reset (R13, R30, R35). -/

namespace Sys2Proof.Machine

/-! ### The invariant at reset -/

/-- Reset meets every part of the invariant but the range of MAXD, which it leaves as given: every
register is Invalid, the error record is that of Ready, and no response waits (R35). -/
@[simp] theorem wf_resetOf (c : Config) : (State.resetOf c).wf = c.wf := by
  have hregs : ∀ r : RegId, regOk c ((State.resetOf c).reg r) = true := fun r => by
    rw [resetOf_reg]
    rfl
  have hrecord : errorRecordOk (State.resetOf c) = true := rfl
  have hresps : (State.resetOf c).resps.all responseOk = true := rfl
  have hcfg : (State.resetOf c).cfg = c := rfl
  rw [State.wf, hcfg, decide_eq_true hregs, hrecord, hresps]
  simp only [Bool.and_true]

theorem wf_standard : Config.standard.wf = true := by decide

/-- Settles O24: by `wf_resetOf`, the invariant at reset is the range of MAXD, which the default meets. -/
theorem resetStateMeetsTheInvariant : Obligations.ResetStateMeetsTheInvariant := by
  unfold Obligations.ResetStateMeetsTheInvariant
  exact ⟨(wf_resetOf Config.standard).trans wf_standard, fun c hc => (wf_resetOf c).trans hc⟩

/-! ### Canonical BigInts and integers -/

/-- Settles O50: `big` and `val` are inverse to each other between the integers and the canonical
BigInts (`canonical_big`, `val_big`, `big_val`), and `canon` lands on `big` of the signed value of its
digits (`canon_eq_big`, which holds of the empty list too). -/
theorem canonicalBigIntsAreTheIntegers : Obligations.CanonicalBigIntsAreTheIntegers := by
  unfold Obligations.CanonicalBigIntsAreTheIntegers
  refine ⟨fun z => ⟨?canonical, ?value⟩, fun v hv => ?inverse, fun s ds _ => ?canon⟩
  case canonical => exact canonical_big z
  case value => exact val_big z
  case inverse => exact big_val hv
  case canon => exact canon_eq_big s ds

end Sys2Proof.Machine
end

section
/-! SUPPORT. Proofs for 10_state.md, the invariant: what a response word carries, which values fit in a
register, and that every update of the state, every command and so every step keeps the invariant (R22,
R26, R30, 30_encoding.md R59). -/

namespace Sys2Proof.Machine

/-! ### The fields of a response word (30_encoding.md R59) -/

/-- Above its three flags an OK response has no bit set. -/
theorem getLsbD_okResponse_high (f : Flags) (d : Half) {k : Nat} (h : 19 ≤ k) :
    (okResponse f d).getLsbD k = false := by
  simp only [okResponse, BitVec.getLsbD_append, BitVec.getLsbD_zero, BitVec.ofNat_eq_ofNat]
  grind

theorem getLsbD_okResponse_z (f : Flags) (d : Half) : (okResponse f d).getLsbD 16 = f.z := by
  simp only [okResponse, BitVec.getLsbD_append]
  simp

theorem getLsbD_okResponse_n (f : Flags) (d : Half) : (okResponse f d).getLsbD 17 = f.n := by
  simp only [okResponse, BitVec.getLsbD_append]
  simp

theorem extractLsb'_okResponse_high (f : Flags) (d : Half) {lo : Nat} (h : 19 ≤ lo) (n : Nat) :
    (okResponse f d).extractLsb' lo n = 0 := by
  apply BitVec.eq_of_getLsbD_eq
  intro i _
  rw [BitVec.getLsbD_extractLsb', getLsbD_okResponse_high f d (by omega), Bool.and_false,
    BitVec.ofNat_eq_ofNat, BitVec.getLsbD_zero]

@[simp] theorem respStatus_okResponse (f : Flags) (d : Half) : respStatus (okResponse f d) = 0 :=
  extractLsb'_okResponse_high f d (by omega) 8

@[simp] theorem respStatus_errResponse (st : Status) : respStatus (errResponse st) = st.code := by
  cases st <;> decide

theorem code_ne_zero (st : Status) : st.code ≠ 0 := by cases st <;> decide

/-- Every error status but ERR_HALTED has a code that ECODE may hold (R30, R191). -/
theorem code_of_ne_halted {st : Status} (h : st ≠ .halted) :
    1 ≤ st.code.toNat ∧ st.code.toNat ≤ 7 := by
  cases st with
  | halted => exact absurd rfl h
  | _ => decide

@[simp] theorem responseOk_okResponse (f : Flags) (d : Half) :
    responseOk (okResponse f d) = !(f.z && f.n) := by
  simp only [responseOk, extractLsb'_okResponse_high f d (le_refl 19), respStatus_okResponse,
    getLsbD_okResponse_z, getLsbD_okResponse_n]
  simp

@[simp] theorem responseOk_errResponse (st : Status) : responseOk (errResponse st) = true := by
  cases st <;> decide

/-- N and Z are not both set for a canonical value: zero is never negative (R13, R60). -/
theorem flagsOf_z_and_n {v : BigInt} (h : v.canonical = true) :
    ((flagsOf v).z && (flagsOf v).n) = false := by
  obtain ⟨-, -, hzero⟩ := (canonical_iff v).1 h
  by_cases h0 : mag v.digits = 0
  · simp [flagsOf, (hzero h0).1]
  · simp [flagsOf, h0]

/-! ### The invariant under each update of the state -/

theorem wf_iff (s : State) : s.wf = true ↔ s.cfg.wf = true
    ∧ (∀ r : RegId, regOk s.cfg (s.reg r) = true) ∧ errorRecordOk s = true
    ∧ ∀ w ∈ s.resps, responseOk w = true := by
  simp only [State.wf, Bool.and_eq_true, decide_eq_true_eq, List.all_eq_true, and_assoc]

theorem regOk_of_wf {s : State} (h : s.wf = true) (r : RegId) : regOk s.cfg (s.reg r) = true :=
  ((wf_iff s).1 h).2.1 r

/-- The invariant does not look at the words offered or at the host's coming actions. -/
theorem wf_with_queues (s : State) (cs : List Word) (es : List HostEvent) :
    ({ s with cmds := cs, host := es } : State).wf = s.wf := rfl

theorem wf_respond {s : State} {w : Word} (h : s.wf = true) (hw : responseOk w = true) :
    (respond w s).wf = true := by
  obtain ⟨hcfg, hregs, hrecord, hresps⟩ := (wf_iff s).1 h
  refine (wf_iff _).2 ⟨hcfg, hregs, hrecord, fun r hr => ?_⟩
  rcases List.mem_append.1 hr with hold | hnew
  · exact hresps r hold
  · rwa [List.mem_singleton.1 hnew]

theorem wf_setReg {s : State} {v : RegState} (h : s.wf = true) (r : RegId)
    (hv : regOk s.cfg v = true) : (s.setReg r v).wf = true := by
  obtain ⟨hcfg, hregs, hrecord, hresps⟩ := (wf_iff s).1 h
  refine (wf_iff _).2 ⟨hcfg, fun q => ?_, hrecord, hresps⟩
  rw [reg_setReg]
  split
  · exact hv
  · exact hregs q

theorem wf_clearError {s : State} (h : s.wf = true) : (clearError s).wf = true := by
  obtain ⟨hcfg, hregs, -, hresps⟩ := (wf_iff s).1 h
  exact (wf_iff _).2 ⟨hcfg, hregs, rfl, hresps⟩

/-- The halt entry latches the code of a status other than ERR_HALTED (R30, R200). -/
theorem wf_haltEntry {s : State} (st : Status) (w : Word) (h : s.wf = true) :
    (haltEntry st w s).wf = true := by
  unfold haltEntry
  split
  · rename_i hentry
    obtain ⟨hcfg, hregs, -, hresps⟩ := (wf_iff s).1 h
    refine (wf_iff _).2 ⟨hcfg, hregs, ?_, hresps⟩
    simpa [errorRecordOk] using code_of_ne_halted hentry.2
  · exact h

theorem wf_raiseStatus {s : State} (st : Status) (w : Word) (h : s.wf = true) :
    (raiseStatus st w s).wf = true :=
  wf_respond (wf_haltEntry st w h) (responseOk_errResponse st)

theorem wf_rejectWord {s : State} (w : Word) (h : s.wf = true) : (rejectWord w s).wf = true := by
  unfold rejectWord
  split <;> exact wf_raiseStatus _ w h

theorem wf_hostAct {s : State} (e : HostEvent) (h : s.wf = true) : (hostAct e s).wf = true := by
  obtain ⟨hcfg, hregs, hrecord, hresps⟩ := (wf_iff s).1 h
  cases e with
  | issue w => exact h
  | take =>
    exact (wf_iff _).2 ⟨hcfg, hregs, hrecord, fun r hr => hresps r (List.mem_of_mem_tail hr)⟩
  | reset => exact (wf_resetOf s.cfg).trans hcfg
  | wait => exact h

/-! ### Values that fit in a register (R22, R36) -/

theorem regOk_valid_iff {c : Config} {v : BigInt} :
    regOk c (.valid v) = true ↔ v.canonical = true ∧ v.len ≤ c.maxd := by
  simp [regOk]

theorem canonical_of_regOk {c : Config} {v : BigInt} (h : regOk c (.valid v) = true) :
    v.canonical = true :=
  (regOk_valid_iff.1 h).1

theorem regOk_opened_iff {c : Config} {b : Bool} {ds : List Digit} :
    regOk c (.opened b ds) = true ↔ ds.length ≤ c.maxd := by
  simp [regOk]

/-- A value no larger in magnitude than one that fits, fits. -/
theorem regOk_big_of_le {c : Config} {v : BigInt} {z : Int} (hv : regOk c (.valid v) = true)
    (hz : z.natAbs ≤ (val v).natAbs) : regOk c (.valid (big z)) = true := by
  obtain ⟨hcan, hlen⟩ := regOk_valid_iff.1 hv
  refine regOk_valid_iff.2 ⟨canonical_big z, le_trans ?_ hlen⟩
  exact (len_big_le (one_le_len hcan)).2 (lt_of_le_of_lt hz (natAbs_val_lt v))

/-- Every residue of a positive modulus that fits, fits. -/
theorem regOk_big_emod {c : Config} {m : BigInt} (hm : regOk c (.valid m) = true)
    (hpos : 0 < val m) (z : Int) : regOk c (.valid (big (z % val m))) = true :=
  regOk_big_of_le hm (by
    have := Int.emod_nonneg z hpos.ne'
    have := Int.emod_lt_of_pos z hpos
    omega)

section Operands

variable {c : Config} {a b m : BigInt}

theorem regOk_bigNeg (ha : regOk c (.valid a) = true) : regOk c (.valid (bigNeg a)) = true := by
  rw [bigNeg_spec]
  exact regOk_big_of_le ha (Int.natAbs_neg _).le

theorem regOk_bigDiv (ha : regOk c (.valid a) = true) (hb : b.canonical = true)
    (h0 : mag b.digits ≠ 0) : regOk c (.valid (bigDiv a b)) = true := by
  rw [bigDiv_spec hb h0]
  exact regOk_big_of_le ha (by rw [Int.natAbs_tdiv]; exact Nat.div_le_self _ _)

theorem regOk_bigRem (hb : regOk c (.valid b) = true) (h0 : mag b.digits ≠ 0) :
    regOk c (.valid (bigRem a b)) = true := by
  rw [bigRem_spec (canonical_of_regOk hb) h0]
  refine regOk_big_of_le hb ?_
  have hlt := Nat.mod_lt (mag a.digits) (Nat.pos_of_ne_zero h0)
  rw [natAbs_val]
  split <;> omega

theorem regOk_bigGcd (ha : regOk c (.valid a) = true) (hb : regOk c (.valid b) = true) :
    regOk c (.valid (bigGcd a b)) = true := by
  rw [bigGcd_spec (canonical_of_regOk ha) (canonical_of_regOk hb)]
  by_cases h0 : val b = 0
  · exact regOk_big_of_le ha (by simp [h0, Int.natAbs_abs])
  · refine regOk_big_of_le hb ?_
    rw [Int.natAbs_natCast]
    exact Nat.le_of_dvd (Int.natAbs_pos.2 h0) (Int.gcd_dvd_natAbs_right _ _)

theorem regOk_emod (hm : regOk c (.valid m) = true) (hpos : 0 < val m) :
    regOk c (.valid (emod a m)) = true := by
  rw [emod_spec (canonical_of_regOk hm) hpos]
  exact regOk_big_emod hm hpos _

theorem regOk_modexp (hb : b.canonical = true) (hm : regOk c (.valid m) = true)
    (hpos : 0 < val m) : regOk c (.valid (modexp a b m)) = true := by
  rw [modexp_spec hb (canonical_of_regOk hm) hpos]
  exact regOk_big_emod hm hpos _

/-- The inverse that MODINV finds lies in `[0, m)`. -/
theorem regOk_modinv {v : BigInt} (hm : regOk c (.valid m) = true) (hpos : 0 < val m)
    (hv : modinv a m = some v) : regOk c (.valid v) = true := by
  obtain ⟨hnone, hsome⟩ := modinv_spec (e := a) (canonical_of_regOk hm) hpos
  by_cases hgcd : Int.gcd (val a) (val m) = 1
  · obtain ⟨d, hd, hd0, hdm, -⟩ := hsome hgcd
    obtain rfl := Option.some.inj (hv.symm.trans hd)
    exact regOk_big_of_le hm (by omega)
  · rw [hnone hgcd] at hv
    cases hv

end Operands

/-! ### How a command that keeps the invariant ends -/

/-- The effect of a command meets the invariant and its flags do not contradict each other; raising a
status asks for nothing. -/
def Completion.Keeps : Completion → Prop
  | .ok t f _ => t.wf = true ∧ (f.z && f.n) = false
  | .err _ => True

theorem wf_of_complete {w : Word} {s t : State} {c : Completion} (hs : s.wf = true)
    (hc : c.Keeps) (h : complete w s c = .next t) : t.wf = true := by
  cases c with
  | ok u f d =>
    obtain rfl := Host.Outcome.next.inj h
    obtain ⟨hu, hf⟩ := hc
    exact wf_respond hu (by rw [responseOk_okResponse, hf, Bool.not_false])
  | err st =>
    obtain rfl := Host.Outcome.next.inj h
    exact wf_raiseStatus st w hs

section Keeps

variable {s : State} {c : Completion} {r rd : RegId} {m v : BigInt}

theorem keeps_err (st : Status) : (Completion.err st).Keeps := trivial

theorem keeps_noFlags (hs : s.wf = true) (d : Half) : (Completion.ok s noFlags d).Keeps := ⟨hs, rfl⟩

theorem keeps_whenReady (h : c.Keeps) : (whenReady s c).Keeps := by
  unfold whenReady
  split
  · exact h
  · exact keeps_err _

/-- A checked source holds a canonical value of at most MAXD digits. -/
theorem keeps_withSrc {k : BigInt → Completion} (hs : s.wf = true)
    (h : ∀ v, regOk s.cfg (.valid v) = true → (k v).Keeps) : (withSrc s r k).Keeps := by
  cases hr : s.reg r with
  | valid v =>
    rw [withSrc_valid hr]
    exact h v (hr ▸ regOk_of_wf hs r)
  | invalid =>
    rw [withSrc_not_valid (by rw [hr]; rfl)]
    exact keeps_err _
  | opened b ds =>
    rw [withSrc_not_valid (by rw [hr]; rfl)]
    exact keeps_err _

/-- The target of PUSHD and END holds at most MAXD digits (R26). -/
theorem keeps_withOpen {k : Bool → List Digit → Completion} (hs : s.wf = true)
    (h : ∀ b ds, ds.length ≤ s.cfg.maxd → (k b ds).Keeps) : (withOpen s r k).Keeps := by
  cases hr : s.reg r with
  | opened b ds =>
    rw [withOpen_opened hr]
    exact h b ds (regOk_opened_iff.1 (hr ▸ regOk_of_wf hs r))
  | invalid =>
    rw [withOpen_not_opened (by rw [hr]; rfl)]
    exact keeps_err _
  | valid v =>
    rw [withOpen_not_opened (by rw [hr]; rfl)]
    exact keeps_err _

theorem keeps_writeResult (hs : s.wf = true) (hv : regOk s.cfg (.valid v) = true) :
    (writeResult s rd v).Keeps :=
  ⟨wf_setReg hs rd hv, flagsOf_z_and_n (canonical_of_regOk hv)⟩

theorem keeps_writeChecked (hs : s.wf = true) (hv : v.canonical = true) :
    (writeChecked s rd v).Keeps := by
  by_cases hlen : v.len ≤ s.cfg.maxd
  · rw [writeChecked_fits hlen]
    exact keeps_writeResult hs (regOk_valid_iff.2 ⟨hv, hlen⟩)
  · rw [writeChecked_overflow (Nat.lt_of_not_le hlen)]
    exact keeps_err _

/-- What is done under a checked modulus may take it to be positive. -/
theorem keeps_withModulus (h : 0 < val m → c.Keeps) : (withModulus m c).Keeps := by
  by_cases h0 : mag m.digits = 0
  · rw [withModulus_zero h0]
    exact keeps_err _
  · cases hn : m.neg with
    | true =>
      rw [withModulus_negative h0 hn]
      exact keeps_err _
    | false =>
      rw [withModulus_positive h0 hn]
      refine h ?_
      simpa [val, hn] using Nat.pos_of_ne_zero h0

theorem keeps_withDivisor (h : mag m.digits ≠ 0 → c.Keeps) : (withDivisor m c).Keeps := by
  by_cases h0 : mag m.digits = 0
  · rw [withDivisor_zero h0]
    exact keeps_err _
  · rw [withDivisor_nonzero h0]
    exact h h0

end Keeps

/-- Every command keeps the invariant (R22, R26, R30, R59). -/
theorem exec_keeps (i : Instr) {s : State} (hs : s.wf = true) :
    ∃ c, exec i s = complete (encode i) s c ∧ c.Keeps := by
  cases i with
  | nop => exact ⟨_, rfl, keeps_whenReady (keeps_noFlags hs _)⟩
  | clre => exact ⟨.ok (clearError s) noFlags 0, rfl, keeps_noFlags (wf_clearError hs) _⟩
  | rdsr idx =>
    refine ⟨_, rfl, ?_⟩
    cases statusRegister s idx with
    | some v => exact keeps_noFlags hs v
    | none => exact keeps_err _
  | beginNum rd sign =>
    exact ⟨_, rfl, keeps_whenReady
      (keeps_noFlags (wf_setReg hs rd (regOk_opened_iff.2 (Nat.zero_le _))) _)⟩
  | pushd rd code =>
    refine ⟨_, rfl, keeps_whenReady (keeps_withOpen hs fun b ds hds => ?_)⟩
    split
    · exact keeps_err _
    · split
      · exact keeps_err _
      · refine keeps_noFlags (wf_setReg hs rd (regOk_opened_iff.2 ?_)) _
        rw [List.length_append, List.length_singleton]
        omega
  | endNum rd =>
    refine ⟨_, rfl, keeps_whenReady (keeps_withOpen hs fun b ds hds => ?_)⟩
    cases ds with
    | nil => exact keeps_err _
    | cons d ds =>
      refine keeps_writeResult hs (regOk_valid_iff.2 ⟨canonical_canon _ _, ?_⟩)
      rw [len_canon]
      exact (length_strip_le (by simp)).trans (by rwa [List.length_reverse])
  | seti rd imm =>
    exact ⟨_, rfl, keeps_whenReady (keeps_writeChecked hs (canonical_big _))⟩
  | mov rd ra =>
    exact ⟨_, rfl, keeps_whenReady (keeps_withSrc hs fun a ha => keeps_writeResult hs ha)⟩
  | neg rd ra =>
    exact ⟨_, rfl, keeps_whenReady (keeps_withSrc hs fun a ha =>
      keeps_writeResult hs (regOk_bigNeg ha))⟩
  | len ra =>
    exact ⟨_, rfl, keeps_whenReady (keeps_withSrc hs fun a ha =>
      ⟨hs, flagsOf_z_and_n (canonical_of_regOk ha)⟩)⟩
  | getd ra index =>
    refine ⟨_, rfl, keeps_whenReady (keeps_withSrc hs fun a ha => ?_)⟩
    split
    · exact keeps_err _
    · exact keeps_noFlags hs _
  | cmp ra rb =>
    exact ⟨_, rfl, keeps_whenReady (keeps_withSrc hs fun a ha => keeps_withSrc hs fun b hb =>
      keeps_noFlags hs _)⟩
  | add rd ra rb =>
    refine ⟨_, rfl, keeps_whenReady (keeps_withSrc hs fun a ha => keeps_withSrc hs fun b hb =>
      keeps_writeChecked hs ?_)⟩
    rw [bigAdd_spec (canonical_of_regOk ha) (canonical_of_regOk hb)]
    exact canonical_big _
  | sub rd ra rb =>
    refine ⟨_, rfl, keeps_whenReady (keeps_withSrc hs fun a ha => keeps_withSrc hs fun b hb =>
      keeps_writeChecked hs ?_)⟩
    rw [bigSub_spec (canonical_of_regOk ha) (canonical_of_regOk hb)]
    exact canonical_big _
  | mul rd ra rb =>
    exact ⟨_, rfl, keeps_whenReady (keeps_withSrc hs fun a ha => keeps_withSrc hs fun b hb =>
      keeps_writeChecked hs (canonical_canon _ _))⟩
  | div rd ra rb =>
    exact ⟨_, rfl, keeps_whenReady (keeps_withSrc hs fun a ha => keeps_withSrc hs fun b hb =>
      keeps_withDivisor fun h0 =>
        keeps_writeResult hs (regOk_bigDiv ha (canonical_of_regOk hb) h0))⟩
  | rem rd ra rb =>
    exact ⟨_, rfl, keeps_whenReady (keeps_withSrc hs fun a ha => keeps_withSrc hs fun b hb =>
      keeps_withDivisor fun h0 => keeps_writeResult hs (regOk_bigRem hb h0))⟩
  | divmod rd ra rb rc =>
    refine ⟨_, rfl, keeps_whenReady ?_⟩
    split
    · exact keeps_err _
    · refine keeps_withSrc hs fun a ha => keeps_withSrc hs fun b hb =>
        keeps_withDivisor fun h0 => ?_
      have hq := regOk_bigDiv ha (canonical_of_regOk hb) h0
      exact ⟨wf_setReg (wf_setReg hs rd hq) rc (regOk_bigRem hb h0),
        flagsOf_z_and_n (canonical_of_regOk hq)⟩
  | modn rd ra rc =>
    exact ⟨_, rfl, keeps_whenReady (keeps_withSrc hs fun a ha => keeps_withSrc hs fun m hm =>
      keeps_withModulus fun hpos => keeps_writeResult hs (regOk_emod hm hpos))⟩
  | modmul rd ra rb rc =>
    exact ⟨_, rfl, keeps_whenReady (keeps_withSrc hs fun a ha => keeps_withSrc hs fun b hb =>
      keeps_withSrc hs fun m hm => keeps_withModulus fun hpos =>
        keeps_writeResult hs (regOk_emod hm hpos))⟩
  | modexp rd ra rb rc =>
    exact ⟨_, rfl, keeps_whenReady (keeps_withSrc hs fun a ha => keeps_withSrc hs fun e he =>
      keeps_withSrc hs fun m hm => keeps_withModulus fun hpos =>
        keeps_writeResult hs (regOk_modexp (canonical_of_regOk he) hm hpos))⟩
  | gcd rd ra rb =>
    exact ⟨_, rfl, keeps_whenReady (keeps_withSrc hs fun a ha => keeps_withSrc hs fun b hb =>
      keeps_writeResult hs (regOk_bigGcd ha hb))⟩
  | modinv rd ra rc =>
    refine ⟨_, rfl, keeps_whenReady (keeps_withSrc hs fun e he => keeps_withSrc hs fun m hm =>
      keeps_withModulus fun hpos => ?_)⟩
    split
    · exact keeps_writeResult hs (regOk_modinv hm hpos ‹_›)
    · exact keeps_err _

theorem wf_of_exec {i : Instr} {s t : State} (hs : s.wf = true) (h : exec i s = .next t) :
    t.wf = true := by
  obtain ⟨c, he, hc⟩ := exec_keeps i hs
  exact wf_of_complete hs hc (he ▸ h)

/-- Settles O25: along the kinds of a step (`step_cases`), each of which works on a state that meets the
invariant and keeps it (`wf_hostAct`, `wf_of_exec`, `wf_rejectWord`). -/
theorem stepKeepsTheInvariant : Obligations.StepKeepsTheInvariant := by
  unfold Obligations.StepKeepsTheInvariant
  intro s t hs h
  obtain ⟨cs, es, hcase⟩ := step_cases s
  have hs' : ({ s with cmds := cs, host := es } : State).wf = true :=
    (wf_with_queues s cs es).trans hs
  obtain ⟨e, -, -, -, hstep⟩ | ⟨-, -, -, hstep⟩
    | ⟨w, -, -, ⟨i, -, hstep⟩ | ⟨why, -, hstep⟩⟩ := hcase
  case inl =>
    obtain rfl := Host.Outcome.next.inj (hstep.symm.trans h)
    exact wf_hostAct e hs'
  case inr.inl =>
    obtain rfl := Host.Outcome.next.inj (hstep.symm.trans h)
    exact hs'
  case inr.inr.inl => exact wf_of_exec hs' (hstep.symm.trans h)
  case inr.inr.inr =>
    obtain rfl := Host.Outcome.next.inj (hstep.symm.trans h)
    exact wf_rejectWord w hs'

end Sys2Proof.Machine
end

section
/-! SUPPORT. Proofs for 10_state.md, the frames: what one command leaves as it was and how MODE and the
error record follow from its response (R24, R25, R29), the status registers (R31) and reset (R35). -/

namespace Sys2Proof.Machine

/-! ### MODE and the error record follow the response -/

theorem recordFollows_raiseStatus {s : State} {st : Status} (w : Word)
    (h : s.mode = .ready → st ≠ .halted) :
    recordFollows w (errResponse st) s (raiseStatus st w s) := by
  rw [recordFollows, respStatus_errResponse]
  refine ⟨fun h0 => absurd h0 (code_ne_zero st), fun _ => ?_⟩
  cases hm : s.mode with
  | ready => simp [raiseStatus_ready w hm (h hm)]
  | halted => simp [raiseStatus_halted st w hm, hm]

theorem recordFollows_okResponse {s t : State} (w : Word) (f : Flags) (d : Half)
    (h : t.mode = s.mode ∧ t.ecode = s.ecode ∧ t.ecmd = s.ecmd) :
    recordFollows w (okResponse f d) s (respond (okResponse f d) t) :=
  ⟨fun _ => h, fun h0 => absurd (respStatus_okResponse f d) h0⟩

/-- A rejected word raises one status, in Ready another than ERR_HALTED (60_exceptions.md R203). -/
theorem rejectWord_eq (w : Word) (s : State) :
    ∃ st, rejectWord w s = raiseStatus st w s ∧ (s.mode = .ready → st ≠ .halted) := by
  unfold rejectWord
  split
  · rename_i h
    exact ⟨.halted, rfl, fun hm => absurd (hm.symm.trans h.1) (by decide)⟩
  · exact ⟨.illegal, rfl, fun _ => by decide⟩

/-! ### The frame of one command -/

/-- All that a finished command leaves as it was, and how MODE and the error record follow from its
response `r`: of CLRE, which clears the record, the last clause says nothing. -/
structure CommandFrame (i : Instr) (r : Word) (s t : State) : Prop where
  resps : t.resps = s.resps ++ [r]
  cfg : t.cfg = s.cfg
  cmds : t.cmds = s.cmds
  host : t.host = s.host
  others : ∀ q, q ∉ destinations i → t.reg q = s.reg q
  onError : respStatus r ≠ 0 → t.regs = s.regs
  record : i ≠ .clre → recordFollows (encode i) r s t

theorem exec_frame {i : Instr} {s t : State} (h : exec i s = .next t) :
    ∃ r, CommandFrame i r s t := by
  obtain ⟨st, he, hst, -⟩ | ⟨u, f, d, he, heff, -⟩ := exec_cases i s
  · obtain rfl := Host.Outcome.next.inj (he.symm.trans h)
    exact ⟨errResponse st, raiseStatus_resps .., raiseStatus_cfg .., raiseStatus_cmds ..,
      raiseStatus_host .., fun q _ => raiseStatus_reg .., fun _ => raiseStatus_regs ..,
      fun _ => recordFollows_raiseStatus _ hst⟩
  · obtain rfl := Host.Outcome.next.inj (he.symm.trans h)
    exact ⟨okResponse f d, congrArg (· ++ [okResponse f d]) heff.resps, heff.cfg,
      heff.cmds, heff.host, heff.others, fun h0 => absurd (respStatus_okResponse f d) h0,
      fun hi => recordFollows_okResponse _ f d (heff.record hi)⟩

theorem regs_eq_of_reg_eq {s t : State} (h : ∀ q, t.reg q = s.reg q) : t.regs = s.regs :=
  Vector.ext fun k hk => h ⟨k, hk⟩

/-- Settles O27: by `exec_frame`, since the five commands have no destination and none of them is CLRE. -/
theorem readOnlyCommandsFrame : Obligations.ReadOnlyCommandsFrame := by
  unfold Obligations.ReadOnlyCommandsFrame
  intro i s t hi h
  have hdest : destinations i = [] ∧ i ≠ .clre := by
    obtain rfl | ⟨idx, rfl⟩ | ⟨ra, rfl⟩ | ⟨ra, k, rfl⟩ | ⟨ra, rb, rfl⟩ := hi <;>
      exact ⟨rfl, by simp⟩
  obtain ⟨r, frame⟩ := exec_frame h
  have hregs : t.regs = s.regs := regs_eq_of_reg_eq fun q => frame.others q (by simp [hdest.1])
  exact ⟨r, frame.resps, hregs, frame.cfg, frame.cmds, frame.host, frame.record hdest.2⟩

/-- Settles O28: by `exec_frame`; a command with one destination is not CLRE, which has none. -/
theorem oneDestinationCommandsFrame : Obligations.OneDestinationCommandsFrame := by
  unfold Obligations.OneDestinationCommandsFrame
  intro i rd s t hdest h
  have hclre : i ≠ .clre := by
    rintro rfl
    cases hdest
  obtain ⟨r, frame⟩ := exec_frame h
  exact ⟨r, frame.resps, frame.cfg, frame.cmds, frame.host,
    fun q hq => frame.others q (by simpa [hdest] using hq), frame.onError, frame.record hclre⟩

/-- Settles O29: by `exec_frame`, with the two destinations of DIVMOD and none of CLRE. -/
theorem divmodAndClreFrame : Obligations.DivmodAndClreFrame := by
  unfold Obligations.DivmodAndClreFrame
  refine ⟨fun rd ra rb rc s t h => ?divmod, fun s t h => ?clre⟩
  case divmod =>
    obtain ⟨r, frame⟩ := exec_frame h
    exact ⟨r, frame.resps, frame.cfg, frame.cmds, frame.host,
      fun q hrd hrc => frame.others q (by simp [destinations, hrd, hrc]), frame.onError,
      frame.record (by simp)⟩
  case clre =>
    obtain ⟨r, frame⟩ := exec_frame h
    exact ⟨regs_eq_of_reg_eq fun q => frame.others q (by simp [destinations]), frame.cfg,
      frame.cmds, frame.host⟩

/-! ### No register becomes Invalid -/

/-- What a command writes to a destination is never the Invalid state (R24). -/
theorem exec_reg_ne_invalid {i : Instr} {s t : State} {r : RegId} (h : exec i s = .next t)
    (hr : s.reg r ≠ .invalid) : t.reg r ≠ .invalid := by
  obtain ⟨st, he, -⟩ | ⟨u, f, d, he, heff, -⟩ := exec_cases i s
  · obtain rfl := Host.Outcome.next.inj (he.symm.trans h)
    rwa [raiseStatus_reg]
  · obtain rfl := Host.Outcome.next.inj (he.symm.trans h)
    rw [respond_reg]
    by_cases hd : r ∈ destinations i
    · exact heff.written r hd
    · rwa [heff.others r hd]

theorem hostAct_reg {e : HostEvent} (he : e ≠ .reset) (s : State) (r : RegId) :
    (hostAct e s).reg r = s.reg r := by
  cases e with
  | reset => exact absurd rfl he
  | _ => rfl

theorem hostAct_mode {e : HostEvent} (he : e ≠ .reset) (s : State) :
    (hostAct e s).mode = s.mode := by
  cases e with
  | reset => exact absurd rfl he
  | _ => rfl

theorem step_host {s : State} {e : HostEvent} {es : List HostEvent} (hh : s.host = e :: es)
    (he : e ≠ .wait) : step s = .next (hostAct e { s with host := es }) := by
  cases e with
  | wait => exact absurd rfl he
  | _ => simp only [step, nextTurn, hh]

theorem rejectWord_reg (w : Word) (s : State) (r : RegId) : (rejectWord w s).reg r = s.reg r := by
  obtain ⟨st, he, -⟩ := rejectWord_eq w s
  rw [he, raiseStatus_reg]

/-- Settles O26: along the kinds of a step (`step_cases`); only a decoded command writes a register, and
never the Invalid state. -/
theorem noCommandMakesARegisterInvalid : Obligations.NoCommandMakesARegisterInvalid := by
  unfold Obligations.NoCommandMakesARegisterInvalid
  intro s t r hreset h hr
  obtain ⟨cs, es, hcase⟩ := step_cases s
  have hr' : ({ s with cmds := cs, host := es } : State).reg r ≠ .invalid := hr
  obtain ⟨e, hhost, -, -, hstep⟩ | ⟨-, -, -, hstep⟩
    | ⟨w, -, -, ⟨i, -, hstep⟩ | ⟨why, -, hstep⟩⟩ := hcase
  case inl =>
    obtain rfl := Host.Outcome.next.inj (hstep.symm.trans h)
    have he : e ≠ .reset := by
      rintro rfl
      exact hreset es hhost
    rwa [hostAct_reg he]
  case inr.inl =>
    obtain rfl := Host.Outcome.next.inj (hstep.symm.trans h)
    exact hr'
  case inr.inr.inl => exact exec_reg_ne_invalid (hstep.symm.trans h) hr'
  case inr.inr.inr =>
    obtain rfl := Host.Outcome.next.inj (hstep.symm.trans h)
    rwa [rejectWord_reg]

/-! ### When MODE moves -/

theorem decode_clreWord : decode 0x01000000 = .instr .clre := by decide

/-- The row of CLRE in 30_encoding.md R62 compares every bit, so CLRE has one word. -/
theorem eq_clreWord_of_decode {w : Word} (h : decode w = .instr .clre) : w = 0x01000000 := by
  by_cases hsel : ∃ r ∈ opcodeRows, r.selects w = true
  · obtain ⟨r, hr, hw⟩ := hsel
    have hbuild : r.build w = .clre := by
      rw [decode_of_selects hr hw] at h
      split at h <;> simp_all
    have hrow : ∀ r ∈ opcodeRows, r.build w = .clre →
        r.mask = 0xFFFFFFFF ∧ r.pattern = 0x01000000 := by
      simp [opcodeRows, systemRows, moveRows, arithRows, modularRows]
    obtain ⟨hmask, hpattern⟩ := hrow r hr hbuild
    rw [selects_iff, hmask, hpattern] at hw
    have hall : w &&& 0xFFFFFFFF = w := BitVec.and_allOnes
    exact hall.symm.trans hw
  · rw [decode_of_not_selects (by simpa using hsel)] at h
    cases h

theorem decode_eq_clre_iff (w : Word) : decode w = .instr .clre ↔ w = 0x01000000 :=
  ⟨eq_clreWord_of_decode, fun h => h ▸ decode_clreWord⟩

theorem mode_of_recordFollows {w r : Word} {s t : State} (h : recordFollows w r s t) :
    t.mode = if respStatus r = 0 then s.mode else .halted := by
  split
  · rename_i h0
    exact (h.1 h0).1
  · rename_i h0
    exact (h.2 h0).1

/-- A step on the block's own turn runs the accepted word's command, or rejects the word. -/
theorem step_word_cases {s t : State} {w : Word} {ws : List Word} (hh : s.host = [])
    (hc : s.cmds = w :: ws) (h : step s = .next t) :
    (∃ i, decode w = .instr i ∧ exec i { s with cmds := ws } = .next t)
      ∨ (∃ why, decode w = .illegal why) ∧ t = rejectWord w { s with cmds := ws } := by
  simp only [step, nextTurn_command hh hc] at h
  cases hd : decode w with
  | instr i =>
    rw [hd] at h
    exact .inl ⟨i, rfl, h⟩
  | illegal why =>
    rw [hd] at h
    exact .inr ⟨⟨why, rfl⟩, (Host.Outcome.next.inj h).symm⟩

/-- How MODE follows from the response to the accepted word `w`: the word of CLRE answers OK and ends in
Ready, every other word halts the block exactly with an error status (R29, R204). -/
theorem step_word_mode {s t : State} {w r : Word} {ws : List Word} (hh : s.host = [])
    (hc : s.cmds = w :: ws) (h : step s = .next t) (hr : t.resps = s.resps ++ [r]) :
    (w = 0x01000000 ∧ respStatus r = 0 ∧ t.mode = .ready)
      ∨ (w ≠ 0x01000000 ∧ t.mode = if respStatus r = 0 then s.mode else .halted) := by
  have response_eq : ∀ r', t.resps = s.resps ++ [r'] → r' = r := fun r' h' => by
    simpa using h'.symm.trans hr
  rw [← decode_eq_clre_iff, ne_eq, ← decode_eq_clre_iff]
  obtain ⟨i, hd, he⟩ | ⟨⟨why, hd⟩, rfl⟩ := step_word_cases hh hc h
  · by_cases hi : i = .clre
    · subst hi
      obtain rfl := Host.Outcome.next.inj ((exec_clre _).symm.trans he)
      obtain rfl := response_eq _ rfl
      exact .inl ⟨hd, respStatus_okResponse _ _, rfl⟩
    · obtain ⟨r', frame⟩ := exec_frame he
      obtain rfl := response_eq r' frame.resps
      exact .inr ⟨by simpa [hd] using hi, mode_of_recordFollows (frame.record hi)⟩
  · obtain ⟨st, heq, hst⟩ := rejectWord_eq w { s with cmds := ws }
    rw [heq] at response_eq ⊢
    obtain rfl := response_eq _ (raiseStatus_resps ..)
    exact .inr ⟨by simp [hd], mode_of_recordFollows (recordFollows_raiseStatus w hst)⟩

/-- Settles O19: MODE on the block's turn is `step_word_mode`; the host's actions by `step_host`,
of which only reset writes MODE. -/
theorem modeMovesOnlyOnErrorClreAndReset : Obligations.ModeMovesOnlyOnErrorClreAndReset := by
  unfold Obligations.ModeMovesOnlyOnErrorClreAndReset
  refine ⟨fun s t w r ws hh hc h hr => ?word, fun s t e es hh h => ?host⟩
  case word =>
    obtain ⟨hw, hok, hmode⟩ | ⟨hw, hmode⟩ := step_word_mode hh hc h hr
    · exact ⟨fun _ => by simp [hmode, hok], fun _ => by simp [hmode, hw]⟩
    · exact ⟨fun hs => by simp [hmode, hs], fun hs => by simpa [hmode, hs] using hw⟩
  case host =>
    refine ⟨fun hreset => ?_, fun hreset hwait => ?_⟩
    · subst hreset
      obtain rfl := Host.Outcome.next.inj ((step_host hh (by decide)).symm.trans h)
      rfl
    · obtain rfl := Host.Outcome.next.inj ((step_host hh hwait).symm.trans h)
      exact hostAct_mode hreset _

/-! ### The status registers -/

theorem testBit_bitsToNat (bs : List Bool) (k : Nat) :
    (bitsToNat bs).testBit k = bs.getD k false := by
  induction bs generalizing k with
  | nil => simp [bitsToNat]
  | cons b bs ih =>
    cases k with
    | zero => cases b <;> simp [bitsToNat, Nat.testBit_zero]
    | succ k =>
      have hhalf : (b.toNat + 2 * bitsToNat bs) / 2 = bitsToNat bs := by
        have := Bool.toNat_le b
        omega
      rw [bitsToNat, Nat.testBit_succ, hhalf, ih, List.getD_cons_succ]

/-- Bit `k` of REGV or REGO is the property of register `k` (R31). -/
theorem getLsbD_regMap (p : RegState → Bool) (s : State) (k : Nat) :
    (regMap p s).getLsbD k = if h : k < 8 then p (s.reg ⟨k, h⟩) else false := by
  rw [regMap, BitVec.getLsbD_ofNat, testBit_bitsToNat]
  split
  · rename_i h
    simp [State.reg, h, show k < 16 by omega, List.getD_eq_getElem?_getD]
  · rename_i h
    simp [h, List.getD_eq_getElem?_getD]

theorem toNat_setWidth_ecode (s : State) : (s.ecode.setWidth 16).toNat = s.ecode.toNat := by
  rw [BitVec.toNat_setWidth]
  have := s.ecode.isLt
  omega

theorem toNat_ecmd_low (s : State) :
    (s.ecmd.extractLsb' 0 16).toNat = s.ecmd.toNat % 2 ^ 16 := by
  rw [BitVec.extractLsb'_toNat, Nat.shiftRight_zero]

theorem toNat_ecmd_high (s : State) :
    (s.ecmd.extractLsb' 16 16).toNat = s.ecmd.toNat / 2 ^ 16 := by
  rw [BitVec.extractLsb'_toNat, Nat.shiftRight_eq_div_pow]
  have := s.ecmd.isLt
  omega

theorem modeValue_eq (m : Mode) : modeValue m = if m = .halted then 1 else 0 := by
  cases m <;> rfl

/-- Settles O31: an index up to 9 names a status register (`statusRegister_none_iff`), whose value each
clause then reads off; a reserved index raises ERR_ILLEGAL (`exec_rdsr_reserved`). -/
theorem rdsrReadsTheStatusRegisters : Obligations.RdsrReadsTheStatusRegisters := by
  unfold Obligations.RdsrReadsTheStatusRegisters
  intro s idx
  refine ⟨fun hidx => ?value, fun hidx hm => ?ready, fun hidx hm => ?halted⟩
  case value =>
    obtain ⟨v, hv⟩ : ∃ v, statusRegister s idx = some v :=
      Option.ne_none_iff_exists'.1 fun hnone =>
        absurd ((statusRegister_none_iff s idx).1 hnone) (by omega)
    refine ⟨v, exec_rdsr hv, ?id, ?version, ?nreg, ?maxd, ?mode, ?ecode, ?ecmdLow, ?ecmdHigh,
      ?regv, ?rego⟩ <;> (rintro rfl; obtain rfl := Option.some.inj hv)
    case id | version | nreg | maxd => rfl
    case mode => exact modeValue_eq s.mode
    case ecode => exact toNat_setWidth_ecode s
    case ecmdLow => exact toNat_ecmd_low s
    case ecmdHigh => exact toNat_ecmd_high s
    case regv => exact getLsbD_regMap RegState.isValid s
    case rego => exact getLsbD_regMap RegState.isOpen s
  case ready =>
    rw [exec_rdsr_reserved ((statusRegister_none_iff s idx).2 hidx),
      raiseStatus_ready _ hm (by decide)]
    rfl
  case halted =>
    rw [exec_rdsr_reserved ((statusRegister_none_iff s idx).2 hidx), raiseStatus_halted _ _ hm]
    rfl

/-! ### After reset -/

/-- A property that no Invalid register has reads as 0 in its status register after reset. -/
theorem regMap_resetOf {p : RegState → Bool} (hp : p .invalid = false) (c : Config) :
    regMap p (State.resetOf c) = 0 := by
  apply BitVec.eq_of_getLsbD_eq
  intro k _
  rw [getLsbD_regMap]
  simp [hp]

/-- Settles O13: each field is the one `State.resetOf` gives; REGV and REGO by `regMap_resetOf`. -/
theorem stateAfterReset : Obligations.StateAfterReset := by
  unfold Obligations.StateAfterReset
  intro c
  have hecmdHigh : (0 : Word).extractLsb' 16 16 = 0 := by decide
  refine ⟨resetOf_reg c, rfl, rfl, rfl, rfl, rfl, rfl, ?id, ?version, ?nreg, ?maxd, ?mode, ?ecode,
    ?ecmdLow, congrArg some hecmdHigh, ?regv, ?rego⟩
  case regv | rego => exact congrArg some (regMap_resetOf rfl c)
  all_goals rfl

end Sys2Proof.Machine
end

section
/-! SUPPORT. Proofs for 20_memory.md: the order in which commands take effect (R50). A step on the block's
turn is the decoded command; every word offered is answered once; a run answers its words in order. -/

namespace Sys2Proof.Machine

/-! ### The step on an accepted word -/

theorem step_of_instr {s s' : State} {w : Word} {i : Instr} (ht : nextTurn s = .command w s')
    (hd : decode w = .instr i) : step s = exec i s' := by
  simp only [step, ht, hd]

theorem step_of_illegal {s s' : State} {w : Word} {why : Illegal} (ht : nextTurn s = .command w s')
    (hd : decode w = .illegal why) : step s = .next (rejectWord w s') := by
  simp only [step, ht, hd]

/-- Settles O11: by `step_of_instr`, with the block's turn on its own and on the host's `wait`. -/
theorem stepRunsTheDecodedCommand : Obligations.StepRunsTheDecodedCommand := by
  unfold Obligations.StepRunsTheDecodedCommand
  intro s w ws i hc hd
  exact ⟨fun hh => step_of_instr (nextTurn_command hh hc) hd,
    fun es hh => step_of_instr (nextTurn_wait_command hh hc) hd⟩

/-! ### What a run leaves on the channels -/

/-- From `s` to `t` the block adds the responses `rs` behind those already there, and leaves the words
offered, the host's actions and the parameters as they were. -/
structure Answers (rs : List Word) (s t : State) : Prop where
  resps : t.resps = s.resps ++ rs
  cmds : t.cmds = s.cmds
  host : t.host = s.host
  cfg : t.cfg = s.cfg

theorem Answers.refl (s : State) : Answers [] s s := ⟨(List.append_nil _).symm, rfl, rfl, rfl⟩

theorem Answers.trans {rs rs' : List Word} {s t u : State} (h : Answers rs s t)
    (h' : Answers rs' t u) : Answers (rs ++ rs') s u where
  resps := by rw [h'.resps, h.resps, List.append_assoc]
  cmds := h'.cmds.trans h.cmds
  host := h'.host.trans h.host
  cfg := h'.cfg.trans h.cfg

theorem Answers.responses_eq {rs rs' : List Word} {s t : State} (h : Answers rs s t)
    (h' : Answers rs' s t) : rs = rs' :=
  List.append_cancel_left (h.resps.symm.trans h'.resps)

theorem answers_raiseStatus (st : Status) (w : Word) (s : State) :
    Answers [errResponse st] s (raiseStatus st w s) :=
  ⟨raiseStatus_resps .., raiseStatus_cmds .., raiseStatus_host .., raiseStatus_cfg ..⟩

theorem exec_answers (i : Instr) (s : State) : ∃ r t, exec i s = .next t ∧ Answers [r] s t := by
  obtain ⟨t, ht⟩ : ∃ t, exec i s = .next t := by
    obtain ⟨st, he, -⟩ | ⟨u, f, d, he, -⟩ := exec_cases i s
    · exact ⟨_, he⟩
    · exact ⟨_, he⟩
  obtain ⟨r, frame⟩ := exec_frame ht
  exact ⟨r, t, ht, frame.resps, frame.cmds, frame.host, frame.cfg⟩

/-- Every word offered is answered once, whether or not it decodes (R50). -/
theorem step_offerNext_answers (w : Word) (s : State) :
    ∃ r t, step (offerNext w s) = .next t ∧ Answers [r] s t := by
  have ht := nextTurn_offerNext w s
  cases hd : decode w with
  | instr i =>
    rw [step_of_instr ht hd]
    exact exec_answers i s
  | illegal why =>
    obtain ⟨st, heq, -⟩ := rejectWord_eq w s
    rw [step_of_illegal ht hd, heq]
    exact ⟨_, _, rfl, answers_raiseStatus st w s⟩

theorem runWords_cons {w : Word} {ws : List Word} {s t : State} (h : step (offerNext w s) = .next t) :
    runWords (w :: ws) s = runWords ws t := by
  simp only [runWords, h]

theorem runSteps_succ {n : Nat} {s t : State} (h : step s = .next t) :
    runSteps (n + 1) s = runSteps n t := by
  simp only [runSteps, h]

/-- A run ends in a next state with one response per word (R50, R223). -/
theorem runWords_answers (ws : List Word) (s : State) :
    ∃ t rs, runWords ws s = .next t ∧ rs.length = ws.length ∧ Answers rs s t := by
  induction ws generalizing s with
  | nil => exact ⟨s, [], rfl, rfl, Answers.refl s⟩
  | cons w ws ih =>
    obtain ⟨r, u, hstep, hu⟩ := step_offerNext_answers w s
    obtain ⟨t, rs, hrun, hlen, ht⟩ := ih u
    exact ⟨t, r :: rs, (runWords_cons hstep).trans hrun, congrArg (· + 1) hlen, hu.trans ht⟩

/-- A run cut in two: the first part runs by itself and its responses come first. -/
theorem runWords_split {us vs rs : List Word} {s t : State} (h : runWords (us ++ vs) s = .next t)
    (hrs : Answers rs s t) :
    ∃ u, runWords us s = .next u ∧ u.resps = s.resps ++ rs.take us.length
      ∧ runWords vs u = .next t := by
  obtain ⟨u, rs₁, hus, hlen, hu⟩ := runWords_answers us s
  have hvs : runWords vs u = .next t := (runWords_append hus).symm.trans h
  obtain ⟨t', rs₂, hvs', -, ht⟩ := runWords_answers vs u
  obtain rfl := Host.Outcome.next.inj (hvs'.symm.trans hvs)
  obtain rfl := hrs.responses_eq (hu.trans ht)
  exact ⟨u, hus, by rw [hu.resps, List.take_left' hlen], hvs⟩

/-- A step that takes a word from the queue ends as if the word had been offered with nothing behind it:
no step looks at the words behind the one it takes (R50). -/
theorem step_withCmds_cons {s t : State} {w : Word} (qs : List Word) (hh : s.host = [])
    (h : step (offerNext w s) = .next t) : step (s.withCmds (w :: qs)) = .next (t.withCmds qs) :=
  (step_queued (s := s.withCmds (w :: qs)) hh rfl).trans (step_offerNext_withCmds (s := s) qs h)

/-- The block alone drains words that stand in front of the queue as a run of them does. -/
theorem runSteps_of_runWords {ws : List Word} {s t : State} (hh : s.host = [])
    (h : runWords ws s = .next t) :
    runSteps ws.length (s.withCmds (ws ++ s.cmds)) = .next t := by
  induction ws generalizing s with
  | nil => exact h
  | cons w ws ih =>
    obtain ⟨r, u, hstep, hu⟩ := step_offerNext_answers w s
    have hrest := ih (hu.host.trans hh) ((runWords_cons hstep).symm.trans h)
    rw [hu.cmds] at hrest
    exact (runSteps_succ (step_withCmds_cons _ hh hstep)).trans hrest

/-- Settles O59: the run's responses by `runWords_answers`, its parts by `runWords_split`, the steps
that drain the same words by `runSteps_of_runWords`. -/
theorem runAnswersEveryWordInOrder : Obligations.RunAnswersEveryWordInOrder := by
  unfold Obligations.RunAnswersEveryWordInOrder
  intro ws s
  obtain ⟨t, rs, hrun, hlen, hrs⟩ := runWords_answers ws s
  refine ⟨t, rs, hrun, hrs.resps, hlen, hrs.cmds, hrs.host, hrs.cfg, ?split, ?drain⟩
  case split =>
    rintro us vs rfl
    exact runWords_split hrun hrs
  case drain => exact fun hh => runSteps_of_runWords hh hrun

end Sys2Proof.Machine
end

section
/-! SUPPORT. Proofs for 30_encoding.md: the encoder and the decoder are inverse to each other (R56 to R58,
R62, R69), which words are illegal and how a step ends on one (R63, R64, R66), and the layout of a
response word (R59, R60). -/

namespace Sys2Proof.Machine

/-! ### A word field by field (R56) -/

theorem wordOfFields_eq_iff {op : Byte} {rd ra rb rc : Nibble} {i8 : Byte} {w : Word} :
    wordOfFields op rd ra rb rc i8 = w ↔
      w.extractLsb' 24 8 = op ∧ w.extractLsb' 20 4 = rd ∧ w.extractLsb' 16 4 = ra
        ∧ w.extractLsb' 12 4 = rb ∧ w.extractLsb' 8 4 = rc ∧ w.extractLsb' 0 8 = i8 := by
  rw [← wordOfFields_inj, ← eq_wordOfFields, eq_comm]

theorem wordOfImm16_eq_iff {op : Byte} {rd ra : Nibble} {i16 : Half} {w : Word} :
    wordOfImm16 op rd ra i16 = w ↔
      w.extractLsb' 24 8 = op ∧ w.extractLsb' 20 4 = rd ∧ w.extractLsb' 16 4 = ra
        ∧ w.extractLsb' 0 16 = i16 := by
  constructor
  · rintro rfl
    obtain ⟨hop, hrd, hra, -⟩ := wordOfFields_eq_iff.1 (wordOfImm16_eq_fields op rd ra i16).symm
    exact ⟨hop, hrd, hra, i16Field_wordOfImm16 op rd ra i16⟩
  · rintro ⟨rfl, rfl, rfl, rfl⟩
    exact (eq_wordOfImm16 w).symm

/-- A row selects a word exactly when each masked field is the pattern's. -/
theorem selects_iff_fields (r : Row) (w : Word) : r.selects w = true ↔
    w.extractLsb' 24 8 &&& r.mask.extractLsb' 24 8 = r.pattern.extractLsb' 24 8
      ∧ w.extractLsb' 20 4 &&& r.mask.extractLsb' 20 4 = r.pattern.extractLsb' 20 4
      ∧ w.extractLsb' 16 4 &&& r.mask.extractLsb' 16 4 = r.pattern.extractLsb' 16 4
      ∧ w.extractLsb' 12 4 &&& r.mask.extractLsb' 12 4 = r.pattern.extractLsb' 12 4
      ∧ w.extractLsb' 8 4 &&& r.mask.extractLsb' 8 4 = r.pattern.extractLsb' 8 4
      ∧ w.extractLsb' 0 8 &&& r.mask.extractLsb' 0 8 = r.pattern.extractLsb' 0 8 := by
  rw [selects_iff, ← wordOfFields_masked, ← eq_wordOfFields]

/-- A register field is that of the register it names exactly when its top bit is 0. -/
theorem eq_regBits_regField_iff (w : Word) (lo : Nat) :
    w.extractLsb' lo 4 = regBits (regField w lo) ↔ w.extractLsb' lo 4 &&& 8#4 = 0#4 := by
  refine ⟨fun h => h ▸ regBits_and_8 _, fun h => (regBits_of_topBit h ?_).symm⟩
  rw [val_regField, BitVec.extractLsb'_toNat, Nat.shiftRight_eq_div_pow,
    Nat.mod_mod_of_dvd _ (by decide)]

/-- The low byte of BEGIN is that of the sign it names exactly when its upper seven bits are 0. -/
theorem eq_signByte_iff (w : Word) :
    w.extractLsb' 0 8 = BitVec.ofNat 8 (w.getLsbD 0).toNat ↔ w.extractLsb' 0 8 &&& 254#8 = 0#8 := by
  have hbyte : ∀ x : Byte, x = BitVec.ofNat 8 (x.getLsbD 0).toNat ↔ x &&& 254#8 = 0#8 := by decide
  have hsign : (w.extractLsb' 0 8).getLsbD 0 = w.getLsbD 0 := by simp
  rw [← hbyte, hsign]

theorem nibble_and_15 (x : Nibble) : x &&& 15#4 = x := BitVec.and_allOnes

theorem byte_and_255 (x : Byte) : x &&& 255#8 = x := BitVec.and_allOnes

/-! ### A row selects the encodings of its command (R62) -/

/-- A row selects a word exactly when the word encodes the command the row reads from it: field by
field, a masked field that the pattern fixes is the encoder's, and so is a register field whose top bit
is 0. (The sign bit of BEGIN stays a `getLsbD`, the form its lemmas speak of.) -/
theorem selects_iff_encode_build {r : Row} (hr : r ∈ opcodeRows) (w : Word) :
    r.selects w = true ↔ encode (r.build w) = w := by
  rw [selects_iff_fields]
  revert r
  simp only [opcodeRows, systemRows, moveRows, arithRows, modularRows, List.cons_append,
    List.nil_append, List.forall_mem_cons]
  simp [-BitVec.getLsbD_eq_getElem, encode, wordOfFields_eq_iff, wordOfImm16_eq_iff, rdField,
    raField, rbField, rcField, i8Field, i16Field, eq_regBits_regField_iff, eq_signByte_iff,
    nibble_and_15, byte_and_255]

/-- A row reads every command from its encoding. -/
theorem exists_row_build_encode (i : Instr) : ∃ r ∈ opcodeRows, r.build (encode i) = i := by
  simp only [opcodeRows, systemRows, moveRows, arithRows, modularRows, List.cons_append,
    List.nil_append, List.mem_cons, or_and_right, exists_or, exists_eq_left]
  cases i <;> simp [-BitVec.getLsbD_eq_getElem, encode, signBit_wordOfFields]

/-! ### Decoding and encoding are inverse to each other (R66, R69) -/

theorem decode_encode (i : Instr) :
    decode (encode i) = if i.wf then .instr i else .illegal .sameDestination := by
  obtain ⟨r, hr, hbuild⟩ := exists_row_build_encode i
  have hsel : r.selects (encode i) = true :=
    (selects_iff_encode_build hr _).2 (congrArg encode hbuild)
  rw [decode_of_selects hr hsel, hbuild]

/-- Settles O1: some row reads the command from its encoding (`exists_row_build_encode`), so that row
selects it (`selects_iff_encode_build`) and only the check of R66 is left. -/
theorem encodedCommandDecodesToItself : Obligations.EncodedCommandDecodesToItself := by
  unfold Obligations.EncodedCommandDecodesToItself
  exact decode_encode

/-- A word is selected by a row, or by none. -/
theorem selected_or_not (w : Word) :
    (∃ r ∈ opcodeRows, r.selects w = true) ∨ ∀ r ∈ opcodeRows, r.selects w = false := by
  by_cases h : ∃ r ∈ opcodeRows, r.selects w = true
  · exact .inl h
  · exact .inr (by simpa using h)

theorem decode_eq_instr_iff {w : Word} {i : Instr} :
    decode w = .instr i ↔ i.wf = true ∧ encode i = w := by
  refine ⟨fun h => ?_, fun ⟨hwf, he⟩ => by rw [← he, decode_encode, if_pos hwf]⟩
  obtain ⟨r, hr, hsel⟩ | hnone := selected_or_not w
  · rw [decode_of_selects hr hsel] at h
    split at h
    · rename_i hwf
      obtain rfl := Decoded.instr.inj h
      exact ⟨hwf, (selects_iff_encode_build hr w).1 hsel⟩
    · cases h
  · rw [decode_of_not_selects hnone] at h
    cases h

/-- Settles O2: a word that decodes is selected by a row, and a row selects only the encodings of the
commands it reads (`selects_iff_encode_build`). -/
theorem legalWordIsItsCommandsEncoding : Obligations.LegalWordIsItsCommandsEncoding := by
  unfold Obligations.LegalWordIsItsCommandsEncoding
  exact fun w i => decode_eq_instr_iff.1

/-- Settles O3: the rows exclude each other (`row_unique`), and `decode` answers by the row that selects
the word or refuses it. -/
theorem everyWordIsOneCommandOrIllegal : Obligations.EveryWordIsOneCommandOrIllegal := by
  unfold Obligations.EveryWordIsOneCommandOrIllegal
  refine ⟨rfl, fun w => ?_⟩
  obtain ⟨r, hr, hsel⟩ | hnone := selected_or_not w
  · exact .inl ⟨r, hr, hsel, fun r' hr' hsel' => row_unique hr' hr hsel' hsel,
      decode_of_selects hr hsel⟩
  · exact .inr ⟨hnone, _, decode_of_not_selects hnone⟩

/-! ### The step on an illegal word (60_exceptions.md R198, R201, R203) -/

theorem rejectWord_ready {s : State} (w : Word) (hs : s.mode = .ready) :
    rejectWord w s = { s with
      mode := .halted, ecode := 0x07, ecmd := w, resps := s.resps ++ [0x07000000] } := by
  have hready : ¬(s.mode = .halted ∧ opField w ≠ 0x01 ∧ opField w ≠ 0x02) := by simp [hs]
  rw [rejectWord, if_neg hready, raiseStatus_ready w hs (by decide)]
  rfl

theorem rejectWord_halted {s : State} {w : Word} (hs : s.mode = .halted)
    (hclre : opField w ≠ 0x01) (hrdsr : opField w ≠ 0x02) :
    rejectWord w s = { s with resps := s.resps ++ [0x08000000] } := by
  rw [rejectWord, if_pos ⟨hs, hclre, hrdsr⟩, raiseStatus_halted _ w hs]
  rfl

/-- An illegal word halts a Ready block with ERR_ILLEGAL. -/
theorem step_illegal_ready {s : State} {w : Word} {ws : List Word} {why : Illegal} (hh : s.host = [])
    (hc : s.cmds = w :: ws) (hd : decode w = .illegal why) (hs : s.mode = .ready) :
    step s = .next { s with
      cmds := ws, mode := .halted, ecode := 0x07, ecmd := w, resps := s.resps ++ [0x07000000] } :=
  (step_of_illegal (nextTurn_command hh hc) hd).trans (congrArg _ (rejectWord_ready w hs))

/-- A Halted block answers ERR_HALTED to an illegal word that has not the opcode of CLRE or RDSR. -/
theorem step_illegal_halted {s : State} {w : Word} {ws : List Word} {why : Illegal}
    (hh : s.host = []) (hc : s.cmds = w :: ws) (hd : decode w = .illegal why)
    (hs : s.mode = .halted) (hclre : opField w ≠ 0x01) (hrdsr : opField w ≠ 0x02) :
    step s = .next { s with cmds := ws, resps := s.resps ++ [0x08000000] } :=
  (step_of_illegal (nextTurn_command hh hc) hd).trans
    (congrArg _ (rejectWord_halted hs hclre hrdsr))

/-! ### Reserved opcodes and must-be-zero bits (R63, R64) -/

/-- The reserved opcode values of R63. -/
def ReservedOpcode (op : Nat) : Prop :=
  (0x03 ≤ op ∧ op ≤ 0x07) ∨ (0x11 ≤ op ∧ op ≤ 0x1F) ∨ (0x22 ≤ op ∧ op ≤ 0x27)
    ∨ (0x29 ≤ op ∧ op ≤ 0x2F) ∨ (0x33 ≤ op ∧ op ≤ 0x37) ∨ (0x3A ≤ op ∧ op ≤ 0x3F)
    ∨ (0x41 ≤ op ∧ op ≤ 0x47) ∨ 0x4A ≤ op

theorem not_reservedOpcode_row : ∀ r ∈ opcodeRows, ¬ReservedOpcode (opField r.pattern).toNat := by
  unfold ReservedOpcode
  decide

theorem decode_of_reservedOpcode {w : Word} (h : ReservedOpcode (opField w).toNat) :
    decode w = .illegal .reservedOpcode := by
  have hop : ∀ r ∈ opcodeRows, opField r.pattern ≠ opField w := fun r hr he =>
    not_reservedOpcode_row r hr (he ▸ h)
  rw [decode_of_not_selects fun r hr => Bool.eq_false_iff.2 fun hsel =>
    hop r hr (opField_of_selects hr hsel).symm]
  simpa [whyIllegal] using hop

/-- Settles O6: no row has a reserved opcode (`not_reservedOpcode_row`), CLRE and RDSR neither. -/
theorem reservedOpcodesAreIllegal : Obligations.ReservedOpcodesAreIllegal := by
  unfold Obligations.ReservedOpcodesAreIllegal
  intro s w ws hh hc (hop : ReservedOpcode (opField w).toNat)
  have hd := decode_of_reservedOpcode hop
  refine ⟨hd, step_illegal_ready hh hc hd, fun hs => step_illegal_halted hh hc hd hs ?clre ?rdsr⟩
  case clre | rdsr =>
    intro h
    rw [h] at hop
    exact absurd hop (by unfold ReservedOpcode; decide)

/-- A word with the opcode of a row that does not select it is selected by no row at all. -/
theorem decode_of_reservedBits {r : Row} {w : Word} (hr : r ∈ opcodeRows)
    (hop : opField w = opField r.pattern) (hsel : r.selects w = false) :
    decode w = .illegal .reservedBits := by
  have hnone : ∀ r' ∈ opcodeRows, r'.selects w = false := fun r' hr' =>
    Bool.eq_false_iff.2 fun hsel' => by
      have he : r' = r := List.inj_on_of_nodup_map opcodes_nodup hr' hr
        ((opField_of_selects hr' hsel').symm.trans hop)
      rw [he, hsel] at hsel'
      cases hsel'
  have hany : opcodeRows.any (fun r => opField r.pattern == opField w) = true :=
    List.any_eq_true.2 ⟨r, hr, by simp [hop]⟩
  rw [decode_of_not_selects hnone, whyIllegal, if_pos hany]

/-- Settles O7: by `decode_of_reservedBits` and the step on an illegal word. -/
theorem mustBeZeroBitsAreChecked : Obligations.MustBeZeroBitsAreChecked := by
  unfold Obligations.MustBeZeroBitsAreChecked
  intro s w ws r hh hc hr hop hmask
  have hd := decode_of_reservedBits hr hop
    (Bool.eq_false_iff.2 fun hsel => hmask ((selects_iff r w).1 hsel))
  exact ⟨hd, step_illegal_ready hh hc hd⟩

/-! ### DIVMOD with one register for both results (R66) -/

theorem wf_iff_not_divmod_same (i : Instr) :
    i.wf = true ↔ ¬∃ rd ra rb, i = .divmod rd ra rb rd := by
  cases i with
  | divmod rd ra rb rc => simp [Instr.wf, eq_comm (a := rc)]
  | _ => simp [Instr.wf]

theorem decode_encode_divmod_same (rd ra rb : RegId) :
    decode (encode (.divmod rd ra rb rd)) = .illegal .sameDestination := by
  rw [decode_encode, if_neg (by simp [Instr.wf])]

theorem exec_divmod_same {s : State} (rd ra rb : RegId) (hs : s.mode = .ready) :
    exec (.divmod rd ra rb rd) s
      = .next (raiseStatus .illegal (encode (.divmod rd ra rb rd)) s) := by
  rw [exec, execDivmod, whenReady_ready hs, if_pos rfl, complete_err]

/-- Settles O8: the word by `decode_encode` and the step on an illegal word, the term by
`exec_divmod_same`; every other command is well formed (`wf_iff_not_divmod_same`). -/
theorem divmodNeedsTwoDestinations : Obligations.DivmodNeedsTwoDestinations := by
  unfold Obligations.DivmodNeedsTwoDestinations
  refine ⟨decode_encode_divmod_same, fun rd ra rb s ws hs hh hc => ?word,
    fun rd ra rb s hs => exec_divmod_same rd ra rb hs, fun i hi => ?other⟩
  case word => exact step_illegal_ready hh hc (decode_encode_divmod_same rd ra rb) hs
  case other => exact decode_eq_instr_iff.2 ⟨(wf_iff_not_divmod_same i).2 hi, rfl⟩

/-! ### Responses (R59, R60) -/

theorem mag_eq_zero_iff_val (v : BigInt) : mag v.digits = 0 ↔ val v = 0 := by
  rw [← natAbs_val, Int.natAbs_eq_zero]

/-- Settles O10: each flag against the value (`mag_eq_zero_iff_val`, `neg_iff_val_neg`,
`isOdd_spec`); that zero is not negative needs the canonical form. -/
theorem flagsDescribeTheValue : Obligations.FlagsDescribeTheValue := by
  unfold Obligations.FlagsDescribeTheValue
  intro v hv
  have hn : v.neg = decide (val v < 0) :=
    Bool.eq_iff_iff.2 ((neg_iff_val_neg hv).trans decide_eq_true_iff.symm)
  rw [flagsOf, valueFlags, decide_eq_decide.2 (mag_eq_zero_iff_val v), hn, isOdd_spec]

theorem getLsbD_okResponse_o (f : Flags) (d : Half) : (okResponse f d).getLsbD 18 = f.o := by
  simp only [okResponse, BitVec.getLsbD_append]
  simp

theorem extractLsb'_okResponse_data (f : Flags) (d : Half) :
    (okResponse f d).extractLsb' 0 16 = d :=
  BitVec.extractLsb'_append_eq_right

theorem errResponse_eq_shiftLeft (st : Status) :
    errResponse st = (st.code.setWidth 32) <<< 24 := by
  cases st <;> rfl

/-- Settles O9: each part of an OK response by its lemma; an error response by
`errResponse_eq_shiftLeft`; the codes are those `Status.code` lists. -/
theorem responseWordLayout : Obligations.ResponseWordLayout := by
  unfold Obligations.ResponseWordLayout
  refine ⟨fun f d => ?ok, errResponse_eq_shiftLeft, rfl, rfl, rfl, rfl, rfl, rfl, rfl, rfl⟩
  case ok =>
    exact ⟨respStatus_okResponse f d, extractLsb'_okResponse_high f d (le_refl 19) 5,
      getLsbD_okResponse_o f d, getLsbD_okResponse_n f d, getLsbD_okResponse_z f d,
      extractLsb'_okResponse_data f d⟩

/-! ### Command words as numbers -/

/-- Settles O4: a word is the sum of its fields (`toNat_wordOfFields`, `toNat_wordOfImm16`), and a
register field is the register's number (`toNat_regBits`). -/
theorem encodingPutsEveryFieldInItsPlace : Obligations.EncodingPutsEveryFieldInItsPlace := by
  unfold Obligations.EncodingPutsEveryFieldInItsPlace
  simp [encode, toNat_wordOfFields, toNat_wordOfImm16, toNat_regBits]

/-- Settles O5: each word is the encoding of its well-formed command (`decode_eq_instr_iff`). -/
theorem specExampleWordsDecode : Obligations.SpecExampleWordsDecode := by
  unfold Obligations.SpecExampleWordsDecode
  simp only [decode_eq_instr_iff]
  decide

end Sys2Proof.Machine
end

section
/-! SUPPORT. Proofs for 40_construct_format_compare.md, one command at a time: how NOP, CLRE and the
commands of a Halted block end (R80, R81, R83), construction (R84 to R86, R88), read-back (R89 to R93) and
comparison (R95, R96). -/

namespace Sys2Proof.Machine

/-! ### Commands of a Halted block (R83) -/

/-- A Halted block answers ERR_HALTED to every command but CLRE and RDSR and is left as it was. -/
theorem exec_halted {i : Instr} {s : State} (hclre : i ≠ .clre) (hrdsr : ∀ idx, i ≠ .rdsr idx)
    (hm : s.mode = .halted) :
    exec i s = .next { s with resps := s.resps ++ [0x08000000] } := by
  obtain ⟨st, he, -, hst⟩ | ⟨t, f, d, -, -, hrun⟩ := exec_cases i s
  · obtain rfl | ⟨-, idx, hi⟩ := hst hm
    · rw [he, raiseStatus_halted _ _ hm]
      rfl
    · exact absurd hi (hrdsr idx)
  · obtain hi | ⟨idx, hi⟩ := hrun hm
    · exact absurd hi hclre
    · exact absurd hi (hrdsr idx)

/-! ### NOP and CLRE (R80, R81) -/

@[simp] theorem okResponse_noFlags_zero : okResponse noFlags 0 = 0x00000000 := by decide

theorem exec_nop {s : State} (hm : s.mode = .ready) : exec .nop s = .next (answered s 0) := by
  rw [exec, execNop, whenReady_ready hm, complete_ok, answered]

/-- Settles O30: by `exec_nop` and `exec_clre`, whose response is the word 0. -/
theorem nopAndClreComplete : Obligations.NopAndClreComplete := by
  unfold Obligations.NopAndClreComplete
  refine fun s => ⟨fun hm => ?nop, ?clre⟩
  case nop => rw [exec_nop hm, answered, okResponse_noFlags_zero, respond]
  case clre => rw [exec_clre, okResponse_noFlags_zero, respond, clearError]

/-! ### BEGIN and PUSHD (R84, R85) -/

theorem exec_beginNum {s : State} (rd : RegId) (sign : Bool) (hm : s.mode = .ready) :
    exec (.beginNum rd sign) s = .next (answered (s.setReg rd (.opened sign [])) 0) := by
  rw [exec, execBegin, whenReady_ready hm, complete_ok, answered]

/-- Settles O32: by `exec_beginNum` and `exec_halted`. -/
theorem beginOpensTheRegister : Obligations.BeginOpensTheRegister := by
  unfold Obligations.BeginOpensTheRegister
  exact fun s rd sign => ⟨exec_beginNum rd sign, exec_halted (by simp) (by simp)⟩

theorem digitOfCode_of_toNat_eq {c : Byte} {d : Digit} (h : c.toNat = d.val) :
    digitOfCode c = some d := by
  have hlt : c.toNat < 10 := h ▸ d.isLt
  rw [digitOfCode, dif_pos hlt]
  exact congrArg some (Fin.ext h)

theorem digitOfCode_eq_none {c : Byte} (h : 9 < c.toNat) : digitOfCode c = none := by
  rw [digitOfCode, dif_neg (by omega)]

section Opened

variable {s : State} {rd : RegId} {sign : Bool} {ds : List Digit} {c : Byte} {d : Digit}

theorem exec_pushd_format (hm : s.mode = .ready) (hr : s.reg rd = .opened sign ds)
    (hc : 9 < c.toNat) :
    exec (.pushd rd c) s = .next (raiseStatus .format (encode (.pushd rd c)) s) := by
  rw [exec, execPushd, whenReady_ready hm, withOpen_opened hr, digitOfCode_eq_none hc, complete_err]

theorem exec_pushd_full (hm : s.mode = .ready) (hr : s.reg rd = .opened sign ds)
    (hc : c.toNat = d.val) (hfull : ds.length = s.cfg.maxd) :
    exec (.pushd rd c) s = .next (raiseStatus .overflow (encode (.pushd rd c)) s) := by
  rw [exec, execPushd, whenReady_ready hm, withOpen_opened hr, digitOfCode_of_toNat_eq hc]
  simp only [if_pos hfull, complete_err]

theorem exec_pushd_digit (hm : s.mode = .ready) (hr : s.reg rd = .opened sign ds)
    (hc : c.toNat = d.val) (hroom : ds.length ≠ s.cfg.maxd) :
    exec (.pushd rd c) s = .next
      (answered (s.setReg rd (.opened sign (ds ++ [d]))) (BitVec.ofNat 16 (ds.length + 1))) := by
  rw [exec, execPushd, whenReady_ready hm, withOpen_opened hr, digitOfCode_of_toNat_eq hc]
  simp only [if_neg hroom, complete_ok, answered]

end Opened

theorem exec_pushd_not_opened {s : State} {rd : RegId} (c : Byte) (hm : s.mode = .ready)
    (hr : (s.reg rd).isOpen = false) :
    exec (.pushd rd c) s = .next (raiseStatus .reg (encode (.pushd rd c)) s) := by
  rw [exec, execPushd, whenReady_ready hm, withOpen_not_opened hr, complete_err]

/-- Settles O33: one lemma per way PUSHD ends; raising a status writes no register
(`raiseStatus_reg`). -/
theorem pushdAppendsTheDigit : Obligations.PushdAppendsTheDigit := by
  unfold Obligations.PushdAppendsTheDigit
  refine fun s rd c => ⟨fun sign ds hm hr => ⟨exec_pushd_format hm hr, fun d hc => ⟨?full, ?digit⟩⟩,
    exec_pushd_not_opened c, fun st => raiseStatus_reg st _ s rd, exec_halted (by simp) (by simp)⟩
  case full => exact exec_pushd_full hm hr hc
  case digit => exact exec_pushd_digit hm hr hc

/-! ### Writing a canonical value (R60, R61) -/

/-- A command that writes a canonical BigInt writes its value and answers the flags and the length of
that value. -/
theorem complete_writeResult {v : BigInt} (w : Word) (s : State) (rd : RegId)
    (hv : v.canonical = true) :
    complete w s (writeResult s rd v) = .next (wroteValue s rd (val v)) := by
  rw [writeResult, complete_ok, wroteValue, big_val hv, flagsDescribeTheValue v hv]

/-! ### END and SETI (R86, R88) -/

/-- The decimal reading of digits written most significant first is the magnitude of the list turned
round into storage order (20_memory.md R43). -/
theorem decimalReading_eq_mag_reverse (ds : List Digit) :
    decimalReading (ds.map Fin.val) = mag ds.reverse := by
  induction ds using List.reverseRecOn with
  | nil => rfl
  | append_singleton ds d ih =>
    rw [decimalReading] at ih ⊢
    rw [List.map_append, List.foldl_append, ih, List.reverse_concat, mag_cons, Nat.add_comm]
    rfl

/-- `canon` of pushed digits has their decimal reading as its value, under the sign. -/
theorem val_canon_reverse (sign : Bool) (ds : List Digit) :
    val (canon sign ds.reverse)
      = if sign then -(decimalReading (ds.map Fin.val) : Int)
        else (decimalReading (ds.map Fin.val) : Int) := by
  rw [val_canon, decimalReading_eq_mag_reverse]

theorem exec_endNum_empty {s : State} {rd : RegId} {sign : Bool} (hm : s.mode = .ready)
    (hr : s.reg rd = .opened sign []) :
    exec (.endNum rd) s = .next (raiseStatus .format (encode (.endNum rd)) s) := by
  rw [exec, execEnd, whenReady_ready hm, withOpen_opened hr, complete_err]

theorem exec_endNum_digits {s : State} {rd : RegId} {sign : Bool} {ds : List Digit}
    (hm : s.mode = .ready) (hr : s.reg rd = .opened sign ds) (hds : ds ≠ []) :
    exec (.endNum rd) s = .next (wroteValue s rd (val (canon sign ds.reverse))) := by
  obtain ⟨d, ds, rfl⟩ := List.exists_cons_of_ne_nil hds
  rw [exec, execEnd, whenReady_ready hm, withOpen_opened hr]
  exact complete_writeResult _ s rd (canonical_canon _ _)

theorem exec_endNum_not_opened {s : State} {rd : RegId} (hm : s.mode = .ready)
    (hr : (s.reg rd).isOpen = false) :
    exec (.endNum rd) s = .next (raiseStatus .reg (encode (.endNum rd)) s) := by
  rw [exec, execEnd, whenReady_ready hm, withOpen_not_opened hr, complete_err]

/-- Settles O34: one lemma per way END ends, and the value of what it writes (`val_canon_reverse`). -/
theorem endCanonicalisesTheDigits : Obligations.EndCanonicalisesTheDigits := by
  unfold Obligations.EndCanonicalisesTheDigits
  refine fun s rd => ⟨fun sign ds hm hr => ⟨fun hnil => ?empty, fun hds => ?digits⟩,
    exec_endNum_not_opened, exec_halted (by simp) (by simp)⟩
  case empty => exact exec_endNum_empty hm (hnil ▸ hr)
  case digits => rw [exec_endNum_digits hm hr hds, val_canon_reverse]

theorem exec_seti {s : State} (rd : RegId) (n : Half) (hm : s.mode = .ready) :
    exec (.seti rd n) s
      = complete (encode (.seti rd n)) s (writeChecked s rd (big n.toInt)) := by
  rw [exec, execSeti, whenReady_ready hm, setiValue]

/-- The range of MAXD (00_scope.md R9). -/
theorem config_wf_iff (c : Config) : c.wf = true ↔ 1 ≤ c.maxd ∧ c.maxd ≤ 65535 := by
  rw [Config.wf, Bool.and_eq_true, decide_eq_true_iff, decide_eq_true_iff]

/-- Settles O35: the overflow test on the length is the test on the value (`len_big_le`). -/
theorem setiWritesTheImmediate : Obligations.SetiWritesTheImmediate := by
  unfold Obligations.SetiWritesTheImmediate
  intro s rd n hcfg
  have hlen := len_big_le (z := n.toInt) ((config_wf_iff _).1 hcfg).1
  refine ⟨fun hm hfits => ?fits, fun hm hlarge => ?overflow, exec_halted (by simp) (by simp)⟩
  case fits =>
    rw [exec_seti rd n hm, writeChecked_fits (hlen.2 hfits),
      complete_writeResult _ s rd (canonical_big _), val_big]
  case overflow =>
    have hover : s.cfg.maxd < (big n.toInt).len := by
      rw [← Nat.not_le, hlen]
      exact Nat.not_lt.2 hlarge
    rw [exec_seti rd n hm, writeChecked_overflow hover, complete_err]

/-! ### MOV, NEG, LEN and GETD (R89, R90, R92, R93) -/

section Source

variable {s : State} {ra : RegId} {a : BigInt}

theorem exec_mov (rd : RegId) (hm : s.mode = .ready) (hr : s.reg ra = .valid a)
    (ha : a.canonical = true) : exec (.mov rd ra) s = .next (wroteValue s rd (val a)) := by
  rw [exec, execMov, whenReady_ready hm, withSrc_valid hr, complete_writeResult _ s rd ha]

theorem exec_neg (rd : RegId) (hm : s.mode = .ready) (hr : s.reg ra = .valid a) :
    exec (.neg rd ra) s = .next (wroteValue s rd (-val a)) := by
  rw [exec, execNeg, whenReady_ready hm, withSrc_valid hr, bigNeg_spec,
    complete_writeResult _ s rd (canonical_big _), val_big]

theorem exec_len (hm : s.mode = .ready) (hr : s.reg ra = .valid a) (ha : a.canonical = true) :
    exec (.len ra) s
      = .next (respond (okResponse (valueFlags (val a)) (BitVec.ofNat 16 a.len)) s) := by
  rw [exec, execLen, whenReady_ready hm, withSrc_valid hr, complete_ok,
    flagsDescribeTheValue a ha, lenData]

theorem exec_getd {k : Half} {d : Digit} (hm : s.mode = .ready) (hr : s.reg ra = .valid a)
    (hd : a.digits[k.toNat]? = some d) :
    exec (.getd ra k) s = .next (answered s (BitVec.ofNat 16 d.val)) := by
  rw [exec, execGetd, whenReady_ready hm, withSrc_valid hr, digitIndex, hd, complete_ok, answered]

theorem exec_getd_domain {k : Half} (hm : s.mode = .ready) (hr : s.reg ra = .valid a)
    (hk : a.digits.length ≤ k.toNat) :
    exec (.getd ra k) s = .next (raiseStatus .domain (encode (.getd ra k)) s) := by
  rw [exec, execGetd, whenReady_ready hm, withSrc_valid hr, digitIndex,
    List.getElem?_eq_none hk, complete_err]

end Source

/-- Settles O40: by `exec_mov`, `big_val` and `exec_neg`. -/
theorem movAndNegWriteTheirResult : Obligations.MovAndNegWriteTheirResult := by
  unfold Obligations.MovAndNegWriteTheirResult
  exact fun s rd ra a hm hr ha => ⟨exec_mov rd hm hr ha, big_val ha, exec_neg rd hm hr⟩

/-- The digit at index `k` is the one of weight `10^k`. -/
theorem mag_div_pow_mod {ds : List Digit} {k : Nat} {d : Digit} (h : ds[k]? = some d) :
    mag ds / 10 ^ k % 10 = d.val := by
  induction ds generalizing k with
  | nil => simp at h
  | cons e ds ih =>
    have he := e.isLt
    cases k with
    | zero =>
      obtain rfl : e = d := by simpa using h
      rw [mag_cons, pow_zero]
      omega
    | succ k =>
      have htail : mag (e :: ds) / 10 = mag ds := by
        rw [mag_cons]
        omega
      rw [pow_succ', ← Nat.div_div_eq_div_mul, htail, ih (by simpa using h)]

/-- Settles O41: by `exec_len`, and the lemma per way GETD ends with `mag_div_pow_mod`. -/
theorem lenAndGetdReadTheRegister : Obligations.LenAndGetdReadTheRegister := by
  unfold Obligations.LenAndGetdReadTheRegister
  refine fun s ra k a hm hr ha => ⟨exec_len hm hr ha, fun hk => ?digit, exec_getd_domain hm hr⟩
  case digit =>
    have hd : a.digits[k.toNat]? = some a.digits[k.toNat] := List.getElem?_eq_getElem hk
    rw [exec_getd hm hr hd, natAbs_val, mag_div_pow_mod hd]

/-! ### Comparison (R15, R95, R96) -/

/-- Settles O51: by the specs of the two comparators; values that compare equal are equal, and canonical
BigInts of the same value are the same (`big_val`). -/
theorem comparatorsOrderCanonicalOperands : Obligations.ComparatorsOrderCanonicalOperands := by
  unfold Obligations.ComparatorsOrderCanonicalOperands
  intro a b ha hb
  refine ⟨cmpMag_spec (canonMag_of_canonical ha) (canonMag_of_canonical hb), cmpBig_spec ha hb, ?eq⟩
  case eq =>
    rw [cmpBig_spec ha hb, compare_eq_iff_eq]
    exact ⟨fun h => by rw [← big_val ha, h, big_val hb], congrArg val⟩

theorem exec_cmp {s : State} {ra rb : RegId} {a b : BigInt} (hm : s.mode = .ready)
    (hra : s.reg ra = .valid a) (hrb : s.reg rb = .valid b) :
    exec (.cmp ra rb) s = .next (answered s (cmpData (cmpBig a b))) := by
  rw [exec, execCmp, whenReady_ready hm, withSrc_valid hra, withSrc_valid hrb, complete_ok, answered]

/-- The response word of CMP, by the order of the values. -/
theorem okResponse_cmpData_compare (x y : Int) :
    okResponse noFlags (cmpData (compare x y))
      = if x < y then (0x0000FFFF : Word) else if x = y then 0x00000000 else 0x00000001 := by
  obtain h | h | h := lt_trichotomy x y
  · rw [compare_lt_iff_lt.2 h, if_pos h]
    rfl
  · rw [compare_eq_iff_eq.2 h, if_neg h.not_lt, if_pos h]
    rfl
  · rw [compare_gt_iff_gt.2 h, if_neg h.not_gt, if_neg h.ne']
    rfl

/-- Settles O42: by `exec_cmp`, the comparator's spec and `okResponse_cmpData_compare`. -/
theorem cmpOrdersTheValues : Obligations.CmpOrdersTheValues := by
  unfold Obligations.CmpOrdersTheValues
  intro s ra rb a b hm hra hrb ha hb
  rw [exec_cmp hm hra hrb, cmpBig_spec ha hb, answered, okResponse_cmpData_compare, respond]

end Sys2Proof.Machine
end

section
/-! SUPPORT. Proofs for 40_construct_format_compare.md, the pseudo-instructions: a run of commands one at a
time, FORMAT (R92, R93), PARSE of decimal and of other texts (R87), and their round trip (R94). -/

namespace Sys2Proof.Machine

/-! ### Runs of commands -/

theorem runInstrs_cons {i : Instr} {is : List Instr} {s t : State} (hwf : i.wf = true)
    (h : exec i s = .next t) : runInstrs (i :: is) s = runInstrs is t :=
  runWords_cons ((step_of_instr (nextTurn_offerNext _ s) (decode_eq_instr_iff.2 ⟨hwf, rfl⟩)).trans h)

theorem runInstrs_append {is js : List Instr} {s u : State} (h : runInstrs is s = .next u) :
    runInstrs (is ++ js) s = runInstrs js u := by
  rw [runInstrs, List.map_append]
  exact runWords_append h

theorem runInstrs_next (is : List Instr) (s : State) : ∃ t, runInstrs is s = .next t := by
  obtain ⟨t, -, h, -⟩ := runWords_answers (is.map encode) s
  exact ⟨t, h⟩

/-! ### FORMAT (R92, R93) -/

/-- The response of GETD with the digit `d`. -/
def digitResponse (d : Digit) : Word := okResponse noFlags (BitVec.ofNat 16 d.val)

/-- The GETD commands below `n` answer the `n` least significant digits, the highest first. -/
theorem runInstrs_getdsDown {s : State} {ra : RegId} {v : BigInt} {n : Nat} (hm : s.mode = .ready)
    (hr : s.reg ra = .valid v) (hlen : v.len ≤ 65535) (hn : n ≤ v.len) :
    runInstrs (getdsDown ra n) s = .next { s with
      resps := s.resps ++ (v.digits.take n).reverse.map digitResponse } := by
  induction n generalizing s with
  | zero =>
    rw [List.take_zero, List.reverse_nil, List.map_nil, List.append_nil]
    rfl
  | succ n ih =>
    have hlt : n < v.digits.length := hn
    have hindex : (BitVec.ofNat 16 n).toNat = n := by
      rw [BitVec.toNat_ofNat]
      omega
    have hd : v.digits[(BitVec.ofNat 16 n).toNat]? = some v.digits[n] := by
      rw [hindex, List.getElem?_eq_getElem hlt]
    rw [getdsDown, runInstrs_cons rfl (exec_getd hm hr hd),
      ih (s := answered s _) hm hr (Nat.le_of_succ_le hn), List.take_succ_eq_append_getElem hlt,
      List.reverse_concat, List.map_cons, answered, respond, List.append_assoc]
    rfl

/-- Settles O38: LEN by `exec_len`, the digits by `runInstrs_getdsDown` from the length on down. -/
theorem formatReadsTheDigitsBack : Obligations.FormatReadsTheDigitsBack := by
  unfold Obligations.FormatReadsTheDigitsBack
  intro s ra v hm hr hv hlen
  rw [formatSeq, runInstrs_cons rfl (exec_len hm hr hv),
    runInstrs_getdsDown (s := respond _ s) hm hr hlen le_rfl, BigInt.len, List.take_length, respond,
    List.append_assoc]
  rfl

/-! ### Characters (R71) -/

/-- The digit that a digit character stands for, as a digit. -/
def digitOfChar (c : Char) : Digit := Fin.ofNat 10 (charDigit c)

theorem isDigitChar_iff {c : Char} : isDigitChar c = true ↔ 48 ≤ c.toNat ∧ c.toNat ≤ 57 := by
  rw [isDigitChar, Bool.and_eq_true, decide_eq_true_iff, decide_eq_true_iff]

theorem val_digitOfChar {c : Char} (h : isDigitChar c = true) :
    (digitOfChar c).val = charDigit c := by
  obtain ⟨-, hhigh⟩ := isDigitChar_iff.1 h
  refine Nat.mod_eq_of_lt ?_
  rw [charDigit]
  omega

theorem toNat_charCode_digit {c : Char} (h : isDigitChar c = true) :
    (charCode c).toNat = (digitOfChar c).val := by
  have hcode := isDigitChar_iff.1 h
  rw [charCode, if_pos hcode, val_digitOfChar h, charDigit, BitVec.toNat_ofNat]
  omega

theorem charCode_of_not_digit {c : Char} (h : isDigitChar c = false) : 9 < (charCode c).toNat := by
  have hcode : ¬(48 ≤ c.toNat ∧ c.toNat ≤ 57) := fun hc =>
    Bool.false_ne_true (h.symm.trans (isDigitChar_iff.2 hc))
  rw [charCode, if_neg hcode]
  decide

theorem digitOfChar_eq_zero {c : Char} (h : isDigitChar c = true) (h0 : digitOfChar c = 0) :
    c = '0' := by
  obtain ⟨hlow, -⟩ := isDigitChar_iff.1 h
  have hdist : c.toNat - 48 = 0 := (val_digitOfChar h).symm.trans (congrArg Fin.val h0)
  refine Char.toNat_inj.1 ?_
  change c.toNat = 48
  omega

/-! ### Building a register (R84 to R87) -/

/-- From `s` to `t` the block built the content `v` in the register `rd` without an error: `t` has the
mode, the error record, the parameters and the other registers of `s`. -/
structure Builds (rd : RegId) (v : RegState) (s t : State) : Prop where
  mode : t.mode = s.mode
  ecode : t.ecode = s.ecode
  ecmd : t.ecmd = s.ecmd
  cfg : t.cfg = s.cfg
  others : ∀ q, q ≠ rd → t.reg q = s.reg q
  target : t.reg rd = v

theorem builds_self {rd : RegId} {v : RegState} {s : State} (h : s.reg rd = v) : Builds rd v s s :=
  ⟨rfl, rfl, rfl, rfl, fun _ _ => rfl, h⟩

/-- A response after a register write builds that register. -/
theorem builds_respond_setReg (w : Word) (rd : RegId) (v : RegState) (s : State) :
    Builds rd v s (respond w (s.setReg rd v)) :=
  ⟨rfl, rfl, rfl, rfl, fun _ hq => reg_setReg_ne s v hq, reg_setReg_self s rd v⟩

/-- Writing the value of a canonical BigInt builds that BigInt. -/
theorem builds_wroteValue {v : BigInt} (rd : RegId) (s : State) (hv : v.canonical = true) :
    Builds rd (.valid v) s (wroteValue s rd (val v)) := by
  rw [wroteValue, big_val hv]
  exact builds_respond_setReg _ rd _ s

theorem Builds.trans {rd : RegId} {v v' : RegState} {s t u : State} (h : Builds rd v s t)
    (h' : Builds rd v' t u) : Builds rd v' s u where
  mode := h'.mode.trans h.mode
  ecode := h'.ecode.trans h.ecode
  ecmd := h'.ecmd.trans h.ecmd
  cfg := h'.cfg.trans h.cfg
  others q hq := (h'.others q hq).trans (h.others q hq)
  target := h'.target

/-- The commands of PARSE that push characters. -/
def pushSeq (rd : RegId) (cs : List Char) : List Instr := cs.map fun c => .pushd rd (charCode c)

/-- Pushing digit characters for which there is room appends their digits. -/
theorem runInstrs_pushSeq {s : State} {rd : RegId} {sign : Bool} {ds : List Digit} {cs : List Char}
    (hm : s.mode = .ready) (hr : s.reg rd = .opened sign ds)
    (hcs : ∀ c ∈ cs, isDigitChar c = true) (hroom : ds.length + cs.length ≤ s.cfg.maxd) :
    ∃ t, runInstrs (pushSeq rd cs) s = .next t
      ∧ Builds rd (.opened sign (ds ++ cs.map digitOfChar)) s t := by
  induction cs generalizing s ds with
  | nil => exact ⟨s, rfl, builds_self (by rw [hr, List.map_nil, List.append_nil])⟩
  | cons c cs ih =>
    obtain ⟨hc, hcs⟩ := List.forall_mem_cons.1 hcs
    rw [List.length_cons] at hroom
    have hpush := exec_pushd_digit hm hr (toNat_charCode_digit hc) (by omega)
    have hb := builds_respond_setReg (okResponse noFlags (BitVec.ofNat 16 (ds.length + 1))) rd
      (.opened sign (ds ++ [digitOfChar c])) s
    obtain ⟨t, hrun, ht⟩ := ih (hb.mode.trans hm) hb.target hcs (by
      rw [hb.cfg, List.length_append, List.length_singleton]
      omega)
    refine ⟨t, (runInstrs_cons rfl hpush).trans hrun, ?_⟩
    rw [List.append_assoc] at ht
    exact hb.trans ht

/-- BEGIN and at most MAXD digit characters leave the register Open with their digits. -/
theorem runInstrs_begin_pushSeq {s : State} (rd : RegId) (sign : Bool) {cs : List Char}
    (hm : s.mode = .ready) (hcs : ∀ c ∈ cs, isDigitChar c = true) (hlen : cs.length ≤ s.cfg.maxd) :
    ∃ u, runInstrs (.beginNum rd sign :: pushSeq rd cs) s = .next u
      ∧ Builds rd (.opened sign (cs.map digitOfChar)) s u := by
  have hb := builds_respond_setReg (okResponse noFlags 0) rd (.opened sign []) s
  obtain ⟨u, hrun, hu⟩ := runInstrs_pushSeq (hb.mode.trans hm) hb.target hcs (by
    rwa [hb.cfg, List.length_nil, Nat.zero_add])
  exact ⟨u, (runInstrs_cons rfl (exec_beginNum rd sign hm)).trans hrun, hb.trans hu⟩

/-! ### PARSE of a decimal text (R87) -/

theorem parseSeq_eq (rd : RegId) (text : List Char) :
    parseSeq rd text
      = (.beginNum rd (hasMinus text) :: pushSeq rd (afterMinus text)) ++ [.endNum rd] := rfl

/-- What PARSE of a decimal text builds: the sign and the digits of the text in canonical form. -/
def parsedValue (text : List Char) : BigInt :=
  canon (hasMinus text) ((afterMinus text).map digitOfChar).reverse

theorem canonical_parsedValue (text : List Char) : (parsedValue text).canonical = true :=
  canonical_canon _ _

theorem runInstrs_parseSeq {s : State} (rd : RegId) {text : List Char} (hm : s.mode = .ready)
    (hne : afterMinus text ≠ []) (hcs : ∀ c ∈ afterMinus text, isDigitChar c = true)
    (hlen : (afterMinus text).length ≤ s.cfg.maxd) :
    ∃ t, runInstrs (parseSeq rd text) s = .next t ∧ Builds rd (.valid (parsedValue text)) s t := by
  obtain ⟨u, hrun, hu⟩ := runInstrs_begin_pushSeq rd (hasMinus text) hm hcs hlen
  have hend := exec_endNum_digits (hu.mode.trans hm) hu.target (mt List.map_eq_nil_iff.1 hne)
  refine ⟨_, ?run, hu.trans (builds_wroteValue rd u (canonical_parsedValue text))⟩
  case run =>
    rw [parseSeq_eq, runInstrs_append hrun, runInstrs_cons rfl hend]
    rfl

theorem val_parsedValue {text : List Char} (hcs : ∀ c ∈ afterMinus text, isDigitChar c = true) :
    val (parsedValue text)
      = if hasMinus text then -(decimalReading ((afterMinus text).map charDigit) : Int)
        else (decimalReading ((afterMinus text).map charDigit) : Int) := by
  have hdigits : ((afterMinus text).map digitOfChar).map Fin.val = (afterMinus text).map charDigit := by
    rw [List.map_map]
    exact List.map_congr_left fun c hc => val_digitOfChar (hcs c hc)
  rw [parsedValue, val_canon_reverse, hdigits]

/-- Settles O36: the run by `runInstrs_parseSeq`, the value it leaves by `val_parsedValue`. -/
theorem parseReadsTheDecimalText : Obligations.ParseReadsTheDecimalText := by
  unfold Obligations.ParseReadsTheDecimalText
  intro s rd text hm _ hne hcs hlen
  obtain ⟨t, hrun, ht⟩ := runInstrs_parseSeq rd hm hne hcs hlen
  refine ⟨t, hrun, ht.mode.trans hm, ht.ecode, ht.ecmd, ht.others, ?_⟩
  rw [ht.target, ← val_parsedValue hcs, big_val (canonical_parsedValue text)]

/-! ### PARSE of other texts (R87, R199, R201) -/

theorem wf_of_destinations {i : Instr} {rd : RegId} (h : destinations i = [rd]) : i.wf = true := by
  cases i with
  | divmod => simp [destinations] at h
  | _ => rfl

section OneDestination

variable {rd : RegId} {is : List Instr} {s t : State}

/-- A run of commands with the one destination `rd` changes no other register. -/
theorem runInstrs_others (hdest : ∀ i ∈ is, destinations i = [rd]) (h : runInstrs is s = .next t)
    {q : RegId} (hq : q ≠ rd) : t.reg q = s.reg q := by
  induction is generalizing s with
  | nil =>
    obtain rfl := Host.Outcome.next.inj h
    rfl
  | cons i is ih =>
    obtain ⟨hi, his⟩ := List.forall_mem_cons.1 hdest
    obtain ⟨_, u, hu, _⟩ := exec_answers i s
    obtain ⟨_, frame⟩ := exec_frame hu
    rw [runInstrs_cons (wf_of_destinations hi) hu] at h
    rw [ih his h, frame.others q (by simpa [hi] using hq)]

/-- A Halted block keeps MODE and ECODE along a run of commands with a destination: none of them is
CLRE. -/
theorem runInstrs_halted (hdest : ∀ i ∈ is, destinations i = [rd]) (hm : s.mode = .halted)
    (h : runInstrs is s = .next t) : t.mode = .halted ∧ t.ecode = s.ecode := by
  induction is generalizing s with
  | nil =>
    obtain rfl := Host.Outcome.next.inj h
    exact ⟨hm, rfl⟩
  | cons i is ih =>
    obtain ⟨hi, his⟩ := List.forall_mem_cons.1 hdest
    have hclre : i ≠ .clre := by
      rintro rfl
      cases hi
    have hrdsr : ∀ idx, i ≠ .rdsr idx := by
      rintro idx rfl
      cases hi
    rw [runInstrs_cons (wf_of_destinations hi) (exec_halted hclre hrdsr hm)] at h
    exact ih (s := { s with resps := s.resps ++ [0x08000000] }) his hm h

/-- The first status that a run raises stays in the error record to its end. -/
theorem runInstrs_raise {js : List Instr} {i : Instr} {u : State} {st : Status}
    (hdest : ∀ j ∈ js ++ i :: is, destinations j = [rd]) (h : runInstrs (js ++ i :: is) s = .next t)
    (hjs : runInstrs js s = .next u) (hm : u.mode = .ready) (hst : st ≠ .halted)
    (hi : exec i u = .next (raiseStatus st (encode i) u)) :
    t.mode = .halted ∧ t.ecode = st.code := by
  obtain ⟨hdi, hdis⟩ := List.forall_mem_cons.1 (List.forall_mem_append.1 hdest).2
  rw [runInstrs_append hjs, runInstrs_cons (wf_of_destinations hdi) hi,
    raiseStatus_ready _ hm hst] at h
  exact runInstrs_halted hdis rfl h

end OneDestination

theorem destinations_parseSeq (rd : RegId) (text : List Char) :
    ∀ i ∈ parseSeq rd text, destinations i = [rd] := by
  simp only [parseSeq, List.forall_mem_cons, List.forall_mem_append, List.forall_mem_map]
  exact ⟨rfl, fun _ _ => rfl, rfl, by simp⟩

/-- PARSE up to a character and from it on. -/
theorem parseSeq_split (rd : RegId) {text before after : List Char} {c : Char}
    (h : afterMinus text = before ++ c :: after) :
    parseSeq rd text = (.beginNum rd (hasMinus text) :: pushSeq rd before)
      ++ .pushd rd (charCode c) :: (pushSeq rd after ++ [.endNum rd]) := by
  rw [parseSeq_eq, h, pushSeq, List.map_append, List.map_cons, List.cons_append, List.cons_append,
    List.append_assoc]
  rfl

/-- Settles O37: the run reaches END without digits, or the first character that PUSHD refuses, on an
Open register; the status raised there stays (`runInstrs_raise`). -/
theorem parseRejectsOtherTexts : Obligations.ParseRejectsOtherTexts := by
  unfold Obligations.ParseRejectsOtherTexts
  intro s rd text hm _
  obtain ⟨t, hrun⟩ := runInstrs_next (parseSeq rd text) s
  have hdest := destinations_parseSeq rd text
  refine ⟨t, hrun, fun q hq => runInstrs_others hdest hrun hq, fun hnil => ?empty,
    fun before c after htext hbefore => ⟨fun hc hlen => ?format, fun hc hlen => ?overflow⟩⟩
  case empty =>
    rw [parseSeq_eq, hnil] at hrun hdest
    obtain ⟨u, hu, hb⟩ :=
      runInstrs_begin_pushSeq rd (hasMinus text) (cs := []) hm (by simp) (Nat.zero_le _)
    have hready := hb.mode.trans hm
    exact runInstrs_raise hdest hrun hu hready (by decide) (exec_endNum_empty hready hb.target)
  case format =>
    rw [parseSeq_split rd htext] at hrun hdest
    obtain ⟨u, hu, hb⟩ := runInstrs_begin_pushSeq rd (hasMinus text) hm hbefore hlen
    have hready := hb.mode.trans hm
    exact runInstrs_raise hdest hrun hu hready (by decide)
      (exec_pushd_format hready hb.target (charCode_of_not_digit hc))
  case overflow =>
    rw [parseSeq_split rd htext] at hrun hdest
    obtain ⟨u, hu, hb⟩ := runInstrs_begin_pushSeq rd (hasMinus text) hm hbefore hlen.le
    have hready := hb.mode.trans hm
    exact runInstrs_raise hdest hrun hu hready (by decide)
      (exec_pushd_full hready hb.target (toNat_charCode_digit hc)
        (by rw [List.length_map, hlen, hb.cfg]))

/-! ### The round trip (R94) -/

/-- Digits without a most significant zero, or the single digit 0, are left alone by `strip`. -/
theorem strip_eq_self {ds : List Digit} (hne : ds ≠ []) (htop : ds.getLast? = some 0 → ds = [0]) :
    strip ds = ds := by
  refine strip_of_canonical (v := ⟨false, ds⟩)
    ((canonical_iff _).2 ⟨List.length_pos_iff.2 hne, htop, fun hmag => ⟨rfl, ?_⟩⟩)
  suffices hlast : ds.getLast? = some 0 by rw [htop hlast, List.length_singleton]
  obtain rfl | ⟨ds, d, rfl⟩ := ds.eq_nil_or_concat'
  · exact absurd rfl hne
  · rw [mag_append] at hmag
    obtain ⟨-, rfl⟩ : mag ds = 0 ∧ d = 0 := by simpa using hmag
    exact List.getLast?_concat

section CanonicalText

variable {text : List Char} (hne : afterMinus text ≠ [])
  (hcs : ∀ c ∈ afterMinus text, isDigitChar c = true)
  (hzero : (afterMinus text).head? = some '0' → text = ['0'])

include hcs hzero in
/-- A canonical text has the digit 0 in front only when it is `0`. -/
theorem text_of_head_digit_zero (h : ((afterMinus text).map digitOfChar).head? = some 0) :
    text = ['0'] := by
  rw [List.head?_map, Option.map_eq_some_iff] at h
  obtain ⟨c, hc, h0⟩ := h
  rw [digitOfChar_eq_zero (hcs c (List.mem_of_head? hc)) h0] at hc
  exact hzero hc

include hne hcs hzero

/-- PARSE keeps the digits of a canonical text as they were written. -/
theorem digits_parsedValue :
    (parsedValue text).digits = ((afterMinus text).map digitOfChar).reverse := by
  refine strip_eq_self (by simpa using hne) fun htop => ?_
  rw [List.getLast?_reverse] at htop
  rw [text_of_head_digit_zero hcs hzero htop]
  rfl

theorem len_parsedValue : (parsedValue text).len = (afterMinus text).length := by
  rw [BigInt.len, digits_parsedValue hne hcs hzero, List.length_reverse, List.length_map]

theorem neg_parsedValue : (parsedValue text).neg = hasMinus text := by
  have hneg : (parsedValue text).neg = (hasMinus text && !((parsedValue text).digits == [0])) := rfl
  cases hminus : hasMinus text with
  | false => rw [hneg, hminus, Bool.false_and]
  | true =>
    have hdigits : (parsedValue text).digits ≠ [0] := by
      intro h0
      rw [digits_parsedValue hne hcs hzero, List.reverse_eq_iff] at h0
      rw [text_of_head_digit_zero hcs hzero (by rw [h0]; rfl)] at hminus
      cases hminus
    rw [hneg, hminus, beq_eq_false_iff_ne.2 hdigits]
    rfl

end CanonicalText

/-- Settles O39: PARSE keeps sign and digits of a canonical text (`neg_parsedValue`,
`digits_parsedValue`), and FORMAT answers the flags and the digits of what the register holds. -/
theorem parseThenFormatGivesTheTextBack : Obligations.ParseThenFormatGivesTheTextBack := by
  unfold Obligations.ParseThenFormatGivesTheTextBack
  intro s rd text hm hcfg hne hcs hlen hzero
  obtain ⟨-, hmaxd⟩ := (config_wf_iff _).1 hcfg
  have hvlen := len_parsedValue hne hcs hzero
  have hcanon := canonical_parsedValue text
  obtain ⟨t, hrun, ht⟩ := runInstrs_parseSeq rd hm hne hcs hlen
  have hformat := formatReadsTheDigitsBack t rd (parsedValue text) (ht.mode.trans hm) ht.target
    hcanon (by omega)
  rw [hvlen] at hformat
  refine ⟨t, _, valueFlags (val (parsedValue text)), hrun, hformat, ?digits, ?sign⟩
  case digits =>
    rw [digits_parsedValue hne hcs hzero, List.reverse_reverse, List.map_map]
    have hresponses : ∀ c ∈ afterMinus text, digitResponse (digitOfChar c)
        = okResponse noFlags (BitVec.ofNat 16 (charDigit c)) := fun c hc => by
      rw [digitResponse, val_digitOfChar (hcs c hc)]
    exact congrArg (fun rs => t.resps ++ _ :: rs) (List.map_congr_left hresponses)
  case sign =>
    rw [← flagsDescribeTheValue _ hcanon]
    exact neg_parsedValue hne hcs hzero

end Sys2Proof.Machine
end

section
/-! SUPPORT. Proofs for 41_addsub.md: the carry chain of the adder and the borrow chain of the subtractor
(R111 to R113), ADD and SUB (R115, R116), and the laws of the adder/subtractor (R117) with those of the
multiplier (42_mul.md R133). -/

namespace Sys2Proof.Machine

/-! ### Chains of cells (R111, R113) -/

/-- The carry or borrow into position `i` of a chain of cells over `x` and `y`, both padded with zeros,
when `c` goes into position 0. -/
def chainInto (cell : Digit → Digit → Bool → Digit × Bool) (x y : List Digit) (c : Bool) : Nat → Bool
  | 0 => c
  | i + 1 => (cell (x.getD i 0) (y.getD i 0) (chainInto cell x y c i)).2

theorem getD_succ_eq_getD_tail (x : List Digit) (i : Nat) : x.getD (i + 1) 0 = x.tail.getD i 0 := by
  cases x with
  | nil => rfl
  | cons d x => rfl

/-- From position 1 up a chain is the chain over the upper positions, entered by what position 0 passes
on. -/
theorem chainInto_succ (cell : Digit → Digit → Bool → Digit × Bool) (x y : List Digit) (c : Bool)
    (i : Nat) : chainInto cell x y c (i + 1)
      = chainInto cell x.tail y.tail (cell (x.getD 0 0) (y.getD 0 0) c).2 i := by
  induction i with
  | zero => rfl
  | succ i ih =>
    rw [chainInto, ih, getD_succ_eq_getD_tail, getD_succ_eq_getD_tail]
    rfl

/-! ### The adder (R111, R112) -/

@[simp] theorem val_addCell_sum (x y : Digit) (c : Bool) :
    (addCell x y c).1.val = (x.val + y.val + c.toNat) % 10 := rfl

@[simp] theorem toNat_addCell_carry (x y : Digit) (c : Bool) :
    (addCell x y c).2.toNat = (x.val + y.val + c.toNat) / 10 := by
  have hx := x.isLt
  have hy := y.isLt
  have hc := Bool.toNat_le c
  rw [addCell]
  by_cases h : 10 ≤ x.val + y.val + c.toNat
  · rw [decide_eq_true h, Bool.toNat_true]
    omega
  · rw [decide_eq_false h, Bool.toNat_false]
    omega

theorem addCell_comm (x y : Digit) (c : Bool) : addCell x y c = addCell y x c := by
  rw [addCell, addCell, Nat.add_comm x.val]

/-- A position that either operand has is one cell, in front of the chain over the positions above. -/
theorem addChain_of_pos {x y : List Digit} (c : Bool) (h : 0 < max x.length y.length) :
    addChain x y c = (addCell (x.getD 0 0) (y.getD 0 0) c).1
      :: addChain x.tail y.tail (addCell (x.getD 0 0) (y.getD 0 0) c).2 := by
  match x, y with
  | [], [] => exact absurd h (Nat.lt_irrefl 0)
  | [], b :: y =>
    rw [addCell_comm]
    rfl
  | [a], [] => rfl
  | a :: a' :: x, [] => rfl
  | a :: x, b :: y => rfl

/-- The chain has a digit for each position of the longer operand and one for a final carry. -/
theorem length_addChain (x y : List Digit) (c : Bool) :
    (addChain x y c).length = max x.length y.length
      + (chainInto addCell x y c (max x.length y.length)).toNat := by
  generalize hn : max x.length y.length = n
  induction n generalizing x y c with
  | zero =>
    obtain rfl : x = [] := List.length_eq_zero_iff.1 (by omega)
    obtain rfl : y = [] := List.length_eq_zero_iff.1 (by omega)
    cases c <;> rfl
  | succ n ih =>
    have htail : max x.tail.length y.tail.length = n := by
      rw [List.length_tail, List.length_tail]
      omega
    rw [addChain_of_pos c (by omega), List.length_cons, ih _ _ _ htail, chainInto_succ]
    omega

/-- Read digit by digit, every position is one cell in front of the chain over the positions above: where
both operands have run out, the cell adds the carry to nothing. -/
theorem getD_addChain_eq_cons (x y : List Digit) (c : Bool) (i : Nat) :
    (addChain x y c).getD i 0 = ((addCell (x.getD 0 0) (y.getD 0 0) c).1
      :: addChain x.tail y.tail (addCell (x.getD 0 0) (y.getD 0 0) c).2).getD i 0 := by
  obtain h | h := Nat.eq_zero_or_pos (max x.length y.length)
  · obtain rfl : x = [] := List.length_eq_zero_iff.1 (by omega)
    obtain rfl : y = [] := List.length_eq_zero_iff.1 (by omega)
    cases c <;> cases i <;> rfl
  · rw [addChain_of_pos c h]

/-- Each output digit is the sum digit of the cell at its position. -/
theorem getD_addChain (x y : List Digit) (c : Bool) (i : Nat) :
    (addChain x y c).getD i 0
      = (addCell (x.getD i 0) (y.getD i 0) (chainInto addCell x y c i)).1 := by
  induction i generalizing x y c with
  | zero => exact getD_addChain_eq_cons x y c 0
  | succ i ih =>
    rw [getD_addChain_eq_cons, List.getD_cons_succ, ih, chainInto_succ, getD_succ_eq_getD_tail,
      getD_succ_eq_getD_tail]

/-- The digit above the longer operand is the final carry. -/
theorem val_getD_addChain_top (x y : List Digit) (c : Bool) :
    ((addChain x y c).getD (max x.length y.length) 0).val
      = (chainInto addCell x y c (max x.length y.length)).toNat := by
  rw [getD_addChain, List.getD_eq_default x 0 (le_max_left _ _),
    List.getD_eq_default y 0 (le_max_right _ _)]
  cases chainInto addCell x y c (max x.length y.length) <;> rfl

/-! ### The sum of canonical operands needs no stripping (R111) -/

/-- A digit list that is no longer than its magnitude needs has no zeros to strip. -/
theorem strip_of_pow_le_mag {ds : List Digit} (hne : ds ≠ [])
    (h : 2 ≤ ds.length → 10 ^ (ds.length - 1) ≤ mag ds) : strip ds = ds := by
  refine strip_eq_self hne fun htop => ?_
  obtain ⟨ds, d, rfl⟩ := ds.eq_nil_or_concat'.resolve_left hne
  obtain rfl : d = 0 := by simpa using htop
  cases ds with
  | nil => rfl
  | cons e ds =>
    have hmag : 10 ^ (e :: ds).length ≤ mag (e :: ds) := by simpa [mag_append] using h (by simp)
    exact absurd (mag_lt_pow _) (Nat.not_lt.2 hmag)

/-- The top digit of a canonical BigInt of more than one digit counts. -/
theorem pow_le_mag_of_canonical {v : BigInt} (hv : v.canonical = true) (h : 2 ≤ v.digits.length) :
    10 ^ (v.digits.length - 1) ≤ mag v.digits := by
  rw [← Nat.not_lt, ← length_digitsOf_le (by omega), ← digits_of_canonical hv]
  omega

/-- A digit other than 0 counts for its weight. -/
theorem pow_le_mag_of_getD {ds : List Digit} {k : Nat} (h : (ds.getD k 0).val ≠ 0) :
    10 ^ k ≤ mag ds := by
  induction ds generalizing k with
  | nil => exact absurd rfl h
  | cons d ds ih =>
    rw [mag_cons]
    cases k with
    | zero =>
      rw [List.getD_cons_zero] at h
      omega
    | succ k =>
      have hk := ih h
      omega

theorem strip_addMag_of_canonical {a b : BigInt} (ha : a.canonical = true) (hb : b.canonical = true) :
    strip (addMag a.digits b.digits) = addMag a.digits b.digits := by
  have hlen := length_addChain a.digits b.digits false
  have htop := val_getD_addChain_top a.digits b.digits false
  rw [← addMag] at hlen htop
  have hpos := one_le_len ha
  rw [BigInt.len] at hpos
  refine strip_of_pow_le_mag (List.length_pos_iff.1 (by omega)) fun h2 => ?_
  cases hcarry : chainInto addCell a.digits b.digits false (max a.digits.length b.digits.length) with
  | true =>
    rw [hcarry, Bool.toNat_true] at hlen htop
    rw [hlen]
    exact pow_le_mag_of_getD (by rw [Nat.add_sub_cancel, htop]; exact one_ne_zero)
  | false =>
    rw [hcarry, Bool.toNat_false, Nat.add_zero] at hlen
    rw [hlen] at h2 ⊢
    rw [mag_addMag]
    obtain hn | hn := max_choice a.digits.length b.digits.length
    · rw [hn] at h2 ⊢
      exact Nat.le_add_right_of_le (pow_le_mag_of_canonical ha h2)
    · rw [hn] at h2 ⊢
      exact Nat.le_add_left_of_le (pow_le_mag_of_canonical hb h2)

/-- Settles O52: the carries are those of the chain of adder cells (`chainInto`), with the digits, the
length and the top digit by the lemmas on `addChain`; canonical operands by
`strip_addMag_of_canonical`. -/
theorem adderCarryChain : Obligations.AdderCarryChain := by
  unfold Obligations.AdderCarryChain
  intro x y n digit
  have hlen : (addMag x y).length = n + (chainInto addCell x y false n).toNat :=
    length_addChain x y false
  have htop : digit (addMag x y) n = (chainInto addCell x y false n).toNat :=
    val_getD_addChain_top x y false
  refine ⟨⟨fun i => (chainInto addCell x y false i).toNat, rfl, fun i _ => ⟨?carry, ?digit⟩,
    fun h => hlen.trans (congrArg (n + ·) h),
    fun h => ⟨hlen.trans (congrArg (n + ·) h), htop.trans h⟩, Bool.toNat_le _⟩,
    mag_addMag x y, fun a b => strip_addMag_of_canonical⟩
  case carry => exact toNat_addCell_carry _ _ _
  case digit => exact (congrArg Fin.val (getD_addChain x y false i)).trans (val_addCell_sum _ _ _)

/-! ### The subtractor (R113) -/

section BorrowCell

variable {x y : Digit} {b : Bool}

/-- A cell whose digit is too small borrows ten from the position above. -/
theorem subCell_borrows (h : x.val < y.val + b.toNat) :
    (subCell x y b).2 = true ∧ (subCell x y b).1.val + y.val + b.toNat = x.val + 10 := by
  have hy := y.isLt
  have hb := Bool.toNat_le b
  refine ⟨decide_eq_true h, ?_⟩
  rw [subCell, val_ofNat10]
  omega

theorem subCell_subtracts (h : y.val + b.toNat ≤ x.val) :
    (subCell x y b).2 = false ∧ (subCell x y b).1.val + y.val + b.toNat = x.val := by
  have hx := x.isLt
  refine ⟨decide_eq_false (Nat.not_lt.2 h), ?_⟩
  rw [subCell, val_ofNat10]
  omega

end BorrowCell

/-- A position of `x` is one cell, in front of the chain over the positions above. -/
theorem subChain_cons (a : Digit) (x y : List Digit) (b : Bool) :
    subChain (a :: x) y b
      = (subCell a (y.getD 0 0) b).1 :: subChain x y.tail (subCell a (y.getD 0 0) b).2 := by
  cases y with
  | nil => rfl
  | cons d y => rfl

/-- Each output digit is the difference digit of the cell at its position. -/
theorem getD_subChain {x : List Digit} (y : List Digit) (b : Bool) {i : Nat} (h : i < x.length) :
    (subChain x y b).getD i 0
      = (subCell (x.getD i 0) (y.getD i 0) (chainInto subCell x y b i)).1 := by
  induction x generalizing y b i with
  | nil => exact absurd h (Nat.not_lt_zero i)
  | cons a x ih =>
    rw [subChain_cons]
    cases i with
    | zero => rfl
    | succ i =>
      rw [List.getD_cons_succ, ih _ _ (Nat.lt_of_succ_lt_succ h), chainInto_succ,
        getD_succ_eq_getD_tail y]
      rfl

theorem mag_eq_getD_zero_add (y : List Digit) : mag y = (y.getD 0 0).val + 10 * mag y.tail := by
  cases y with
  | nil => rfl
  | cons d y => rfl

/-- What is subtracted at a position and above it never exceeds what is there, so nothing is borrowed from
above the top. -/
theorem chainInto_subCell_length {x y : List Digit} {b : Bool} (h : mag y + b.toNat ≤ mag x) :
    chainInto subCell x y b x.length = false := by
  induction x generalizing y b with
  | nil =>
    rw [mag_nil] at h
    have hb : b.toNat = 0 := by omega
    exact Bool.toNat_eq_zero.1 hb
  | cons a x ih =>
    rw [List.length_cons, chainInto_succ, List.getD_cons_zero]
    refine ih ?_
    rw [mag_cons, mag_eq_getD_zero_add y] at h
    have ha := a.isLt
    obtain hlt | hle := Nat.lt_or_ge a.val ((y.getD 0 0).val + b.toNat)
    · obtain ⟨hborrow, -⟩ := subCell_borrows hlt
      rw [hborrow, Bool.toNat_true]
      omega
    · obtain ⟨hnone, -⟩ := subCell_subtracts hle
      rw [hnone, Bool.toNat_false]
      omega

/-- Settles O53: the borrows are those of the chain of borrow cells (`chainInto`), with the digits by
`getD_subChain` and the last borrow by `chainInto_subCell_length`. -/
theorem subtractorBorrowChain : Obligations.SubtractorBorrowChain := by
  unfold Obligations.SubtractorBorrowChain
  intro x y hle digit
  refine ⟨⟨fun i => (chainInto subCell x y false i).toNat, rfl, ?top, fun i hi => ?cell⟩, rfl,
    mag_subMag hle⟩
  case top => exact congrArg Bool.toNat (chainInto_subCell_length (b := false) hle)
  case cell =>
    have hdigit : digit (subChain x y false) i = _ := congrArg Fin.val (getD_subChain y false hi)
    rw [hdigit]
    refine ⟨fun h => ?borrows, fun h => ?subtracts⟩
    case borrows =>
      obtain ⟨hborrow, hval⟩ := subCell_borrows h
      exact ⟨congrArg Bool.toNat hborrow, hval⟩
    case subtracts =>
      obtain ⟨hborrow, hval⟩ := subCell_subtracts h
      exact ⟨congrArg Bool.toNat hborrow, hval⟩

/-! ### ADD and SUB (R115, R116) -/

section Checked

variable {s : State} {z : Int} (w : Word) (rd : RegId)

theorem complete_writeChecked_fits (hcfg : s.cfg.wf = true) (hz : z.natAbs < 10 ^ s.cfg.maxd) :
    complete w s (writeChecked s rd (big z)) = .next (wroteValue s rd z) := by
  have hlen := (len_big_le ((config_wf_iff _).1 hcfg).1).2 hz
  rw [writeChecked_fits hlen, complete_writeResult w s rd (canonical_big z), val_big]

theorem complete_writeChecked_overflow (hcfg : s.cfg.wf = true)
    (hz : 10 ^ s.cfg.maxd ≤ z.natAbs) :
    complete w s (writeChecked s rd (big z)) = .next (raiseStatus .overflow w s) := by
  have hlen := mt (len_big_le ((config_wf_iff _).1 hcfg).1).1 (Nat.not_lt.2 hz)
  rw [writeChecked_overflow (Nat.lt_of_not_le hlen), complete_err]

end Checked

section Operands

variable {s : State} {ra rb : RegId} {a b : BigInt} (rd : RegId) (hm : s.mode = .ready)
  (hra : s.reg ra = .valid a) (hrb : s.reg rb = .valid b) (ha : a.canonical = true)
  (hb : b.canonical = true)

include hm hra hrb ha hb

theorem exec_add : exec (.add rd ra rb) s
    = complete (encode (.add rd ra rb)) s (writeChecked s rd (big (val a + val b))) := by
  rw [exec, execAdd, whenReady_ready hm, withSrc_valid hra, withSrc_valid hrb, bigAdd_spec ha hb]

theorem exec_sub : exec (.sub rd ra rb) s
    = complete (encode (.sub rd ra rb)) s (writeChecked s rd (big (val a - val b))) := by
  rw [exec, execSub, whenReady_ready hm, withSrc_valid hra, withSrc_valid hrb, bigSub_spec ha hb]

end Operands

/-- Settles O43: by `exec_add` and `exec_sub`, and how the overflow test on a value ends. -/
theorem addAndSubAreExact : Obligations.AddAndSubAreExact := by
  unfold Obligations.AddAndSubAreExact
  intro s rd ra rb a b hm hcfg hra hrb ha hb
  rw [exec_add rd hm hra hrb ha hb, exec_sub rd hm hra hrb ha hb]
  exact ⟨complete_writeChecked_fits _ rd hcfg, complete_writeChecked_overflow _ rd hcfg,
    complete_writeChecked_fits _ rd hcfg, complete_writeChecked_overflow _ rd hcfg⟩

/-! ### The laws of the integers (R117, R133) -/

@[simp] theorem bigAdd_big (x y : Int) : bigAdd (big x) (big y) = big (x + y) := by
  rw [bigAdd_spec (canonical_big x) (canonical_big y), val_big, val_big]

@[simp] theorem bigSub_big (x y : Int) : bigSub (big x) (big y) = big (x - y) := by
  rw [bigSub_spec (canonical_big x) (canonical_big y), val_big, val_big]

@[simp] theorem bigMul_big (x y : Int) : bigMul (big x) (big y) = big (x * y) := by
  rw [bigMul_spec, val_big, val_big]

@[simp] theorem bigNeg_big (x : Int) : bigNeg (big x) = big (-x) := by
  rw [bigNeg_spec, val_big]

theorem exists_eq_big {v : BigInt} (h : v.canonical = true) : ∃ z, v = big z :=
  ⟨val v, (big_val h).symm⟩

/-- Settles O57: canonical BigInts are `big` of integers, on which the units are the integer operations,
so each law is a law of the integers. -/
theorem ringLaws : Obligations.RingLaws := by
  unfold Obligations.RingLaws
  intro a b c ha hb hc
  obtain ⟨x, rfl⟩ := exists_eq_big ha
  obtain ⟨y, rfl⟩ := exists_eq_big hb
  obtain ⟨z, rfl⟩ := exists_eq_big hc
  simp only [bigAdd_big, bigSub_big, bigMul_big, bigNeg_big]
  exact ⟨congrArg big (add_comm x y), congrArg big (add_assoc x y z), congrArg big (add_zero x),
    congrArg big (add_neg_cancel x), congrArg big (sub_eq_add_neg x y),
    congrArg big (neg_sub y x).symm, congrArg big (mul_comm x y), congrArg big (mul_assoc x y z),
    congrArg big (mul_one x), congrArg big (mul_zero x), congrArg big (mul_add x y z)⟩

end Sys2Proof.Machine
end

section
/-! SUPPORT. Proofs for 42_mul.md: the buffer of the digit-product array (R131) and MUL (R132). -/

namespace Sys2Proof.Machine

/-- The array stores each row in place: the buffer keeps the length it is given (R131). -/
theorem length_mulMag (x y : List Digit) : (mulMag x y).length = x.length + y.length := by
  rw [mulMag, Nat.add_comm x.length, List.replicate_add, Nat.add_comm y.length]
  exact (mulRows_spec x y _ List.length_replicate).2

/-- Settles O54: by `length_mulMag`, and `mag_mulMag` for the product. -/
theorem multiplierFillsTheBuffer : Obligations.MultiplierFillsTheBuffer := by
  unfold Obligations.MultiplierFillsTheBuffer
  exact fun x y => ⟨length_mulMag x y, mag_mulMag x y⟩

/-- In Ready, MUL of two registers that hold values is the overflow test on the integer product. Unlike
ADD and SUB it needs no canonical operands: the sign stage and the array are exact on any digits. -/
theorem exec_mul {s : State} {ra rb : RegId} {a b : BigInt} (rd : RegId) (hm : s.mode = .ready)
    (hra : s.reg ra = .valid a) (hrb : s.reg rb = .valid b) : exec (.mul rd ra rb) s
      = complete (encode (.mul rd ra rb)) s (writeChecked s rd (big (val a * val b))) := by
  rw [exec, execMul, whenReady_ready hm, withSrc_valid hra, withSrc_valid hrb, bigMul_spec]

/-- Settles O44: by `exec_mul`, and how the overflow test on a value ends. -/
theorem mulIsExact : Obligations.MulIsExact := by
  unfold Obligations.MulIsExact
  intro s rd ra rb a b hm hcfg hra hrb _ _
  rw [exec_mul rd hm hra hrb]
  exact ⟨complete_writeChecked_fits _ rd hcfg, complete_writeChecked_overflow _ rd hcfg⟩

end Sys2Proof.Machine
end

section
/-! SUPPORT. Proofs for 43_divrem.md: the restoring divider (R141), the laws of quotient and remainder
(R146), and DIV, REM and DIVMOD (R143 to R145). -/

namespace Sys2Proof.Machine

/-! ### The restoring divider (R141) -/

/-- Settles O55: by `divLoop_spec`, the invariant of the loop; stripping keeps the quotient's magnitude and
leaves a canonical remainder as it is. -/
theorem restoringDividerDivides : Obligations.RestoringDividerDivides := by
  unfold Obligations.RestoringDividerDivides
  intro a b _ hb h0
  obtain ⟨hquot, hlen, hcanon, hrem⟩ :=
    divLoop_spec (canonMag_of_canonical hb) (Nat.pos_of_ne_zero h0) a.digits
  exact ⟨hlen, (mag_strip _).trans hquot, hrem, (strip_eq_digitsOf _).trans hcanon.symm⟩

/-! ### The laws of quotient and remainder (R142, R146) -/

section Divisor

variable {a b : BigInt} (hb : b.canonical = true) (h0 : mag b.digits ≠ 0)

include hb h0

theorem mag_bigDiv : mag (bigDiv a b).digits = mag a.digits / mag b.digits := by
  rw [bigDiv, mag_canon, (divMag_spec (canonMag_of_canonical hb) (Nat.pos_of_ne_zero h0) _).1,
    mag_digitsOf]

theorem mag_bigRem : mag (bigRem a b).digits = mag a.digits % mag b.digits := by
  rw [bigRem, mag_canon, (divMag_spec (canonMag_of_canonical hb) (Nat.pos_of_ne_zero h0) _).2,
    mag_digitsOf]

theorem val_bigDiv : val (bigDiv a b) = (val a).tdiv (val b) := by
  rw [bigDiv_spec hb h0, val_big]

/-- Under a divisor that is not negative the remainder has the sign of the dividend: it is the remainder of
the truncating division. -/
theorem val_bigRem_of_not_neg (hn : b.neg = false) : val (bigRem a b) = (val a).tmod (val b) := by
  rw [bigRem_spec hb h0, val_big, Int.ofNat_tmod, val, val, hn]
  cases a.neg with
  | false => rfl
  | true => exact (Int.neg_tmod _ _).symm

end Divisor

theorem canonical_bigDiv (a b : BigInt) : (bigDiv a b).canonical = true := canonical_canon _ _

theorem canonical_bigRem (a b : BigInt) : (bigRem a b).canonical = true := canonical_canon _ _

/-- Zero has one canonical BigInt (R14). -/
theorem eq_big_zero_iff {v : BigInt} (hv : v.canonical = true) : v = big 0 ↔ mag v.digits = 0 := by
  rw [mag_eq_zero_iff_val]
  exact ⟨fun h => by rw [h, val_big], fun h => by rw [← h, big_val hv]⟩

/-- Settles O56: the magnitudes of quotient and remainder are those of natural division (`mag_bigDiv`,
`mag_bigRem`), their values under a divisor that is not negative those of truncating division (`val_bigDiv`,
`val_bigRem_of_not_neg`). -/
theorem divisionLaws : Obligations.DivisionLaws := by
  unfold Obligations.DivisionLaws
  intro a b _ hb hval
  have h0 : mag b.digits ≠ 0 := mt (mag_eq_zero_iff_val b).1 hval
  refine ⟨?decompose, ?bound, fun hn => ?value, ?exactly, fun ha htwo => ?halve⟩
  case decompose =>
    rw [mag_bigDiv hb h0, mag_bigRem hb h0]
    exact (Nat.div_add_mod' _ _).symm
  case bound =>
    rw [mag_bigRem hb h0]
    exact Nat.mod_lt _ (Nat.pos_of_ne_zero h0)
  case value =>
    rw [val_bigDiv hb h0, val_bigRem_of_not_neg hb h0 hn]
    exact (Int.tdiv_mul_add_tmod _ _).symm
  case exactly =>
    rw [eq_big_zero_iff (canonical_bigRem a b), mag_bigRem hb h0]
    exact Nat.dvd_iff_mod_eq_zero.symm
  case halve =>
    rw [val_bigDiv hb h0, htwo]
    exact Int.tdiv_eq_ediv_of_nonneg ha

/-! ### DIV, REM and DIVMOD (R143 to R145) -/

section Operands

variable {s : State} {ra rb : RegId} {a b : BigInt} (rd : RegId) (hm : s.mode = .ready)
  (hra : s.reg ra = .valid a) (hrb : s.reg rb = .valid b)

include hm hra hrb

theorem exec_div : exec (.div rd ra rb) s
    = complete (encode (.div rd ra rb)) s (withDivisor b (writeResult s rd (bigDiv a b))) := by
  rw [exec, execDiv, whenReady_ready hm, withSrc_valid hra, withSrc_valid hrb]

theorem exec_rem : exec (.rem rd ra rb) s
    = complete (encode (.rem rd ra rb)) s (withDivisor b (writeResult s rd (bigRem a b))) := by
  rw [exec, execRem, whenReady_ready hm, withSrc_valid hra, withSrc_valid hrb]

theorem exec_divmod {rc : RegId} (hne : rd ≠ rc) : exec (.divmod rd ra rb rc) s
    = complete (encode (.divmod rd ra rb rc)) s
        (withDivisor b (writeBoth s rd rc (bigDiv a b) (bigRem a b))) := by
  rw [exec, execDivmod, whenReady_ready hm, if_neg hne, withSrc_valid hra, withSrc_valid hrb]

end Operands

/-- The two writes of DIVMOD are the write of the quotient with its answer, then that of the remainder. -/
theorem complete_writeBoth {q : BigInt} (w : Word) (s : State) (rd rc : RegId) (r : BigInt)
    (hq : q.canonical = true) : complete w s (writeBoth s rd rc q r)
      = .next ((wroteValue s rd (val q)).setReg rc (.valid r)) := by
  rw [writeBoth, complete_ok, wroteValue, big_val hq, flagsDescribeTheValue q hq]
  rfl

/-- Settles O45: each command is the divisor check and its writes (`exec_div`, `exec_rem`, `exec_divmod`);
what they write has the values of `val_bigDiv` and `bigRem_spec`. -/
theorem divRemDivmodResults : Obligations.DivRemDivmodResults := by
  unfold Obligations.DivRemDivmodResults
  intro s rd ra rb rc a b hm hne hra hrb _ hb
  rw [exec_div rd hm hra hrb, exec_rem rd hm hra hrb, exec_divmod rd hm hra hrb hne, natAbs_val,
    natAbs_val]
  refine ⟨fun hval => ?divides, fun hval => ?divzero⟩
  case divides =>
    have h0 : mag b.digits ≠ 0 := mt (mag_eq_zero_iff_val b).1 hval
    simp only [withDivisor_nonzero h0]
    rw [complete_writeResult _ s rd (canonical_bigDiv a b),
      complete_writeResult _ s rd (canonical_bigRem a b),
      complete_writeBoth _ s rd rc _ (canonical_bigDiv a b), val_bigDiv hb h0, bigRem_spec hb h0,
      val_big]
    exact ⟨rfl, rfl, rfl⟩
  case divzero =>
    have h0 : mag b.digits = 0 := (mag_eq_zero_iff_val b).2 hval
    simp only [withDivisor_zero h0, complete_err, and_self]

end Sys2Proof.Machine
end

section
/-! SUPPORT. Proofs for 44_modular.md: the laws of the non-negative reduction (R158), the modulus check
by the value of the modulus (R159), MODN and MODMUL (R156, R157). -/

namespace Sys2Proof.Machine

/-! ### The laws of the non-negative reduction (R158) -/

theorem emod_big {m : BigInt} (hm : m.canonical = true) (hpos : 0 < val m) (z : Int) :
    emod (big z) m = big (z % val m) := by
  rw [emod_spec hm hpos, val_big]

/-- Settles O58: on the `big` of an integer the unit is the Euclidean remainder (`emod_big`), so each law
is a law of that remainder. -/
theorem reductionLaws : Obligations.ReductionLaws := by
  unfold Obligations.ReductionLaws
  intro a b m ha hb hm hpos
  obtain ⟨x, rfl⟩ := exists_eq_big ha
  obtain ⟨y, rfl⟩ := exists_eq_big hb
  simp only [bigAdd_big, bigMul_big, emod_big hm hpos, val_big]
  exact ⟨Int.emod_nonneg x hpos.ne', Int.emod_lt_of_pos x hpos, congrArg big (Int.emod_emod x (val m)),
    congrArg big (Int.mul_emod x y (val m)), fun k => congrArg big (Int.add_mul_emod_self_right x k _)⟩

/-! ### The modulus check by the value of the modulus (R159) -/

section Modulus

variable {m : BigInt} (k : Completion)

theorem withModulus_of_val_zero (h : val m = 0) : withModulus m k = .err .divzero :=
  withModulus_zero ((mag_eq_zero_iff_val m).2 h)

theorem withModulus_of_val_neg (hm : m.canonical = true) (h : val m < 0) :
    withModulus m k = .err .domain :=
  withModulus_negative (mt (mag_eq_zero_iff_val m).1 h.ne) ((neg_iff_val_neg hm).2 h)

theorem withModulus_of_val_pos (hm : m.canonical = true) (h : 0 < val m) : withModulus m k = k :=
  withModulus_positive (mt (mag_eq_zero_iff_val m).1 h.ne') (mag_of_val_pos hm h).1

end Modulus

/-! ### MODN and MODMUL (R156, R157) -/

section Operands

variable {s : State} {ra rb rc : RegId} {a b m : BigInt} (rd : RegId) (hmode : s.mode = .ready)
  (hra : s.reg ra = .valid a) (hrb : s.reg rb = .valid b) (hrc : s.reg rc = .valid m)

include hmode hra hrc

theorem exec_modn : exec (.modn rd ra rc) s
    = complete (encode (.modn rd ra rc)) s (withModulus m (writeResult s rd (emod a m))) := by
  rw [exec, execModn, whenReady_ready hmode, withSrc_valid hra, withSrc_valid hrc]

include hrb

theorem exec_modmul : exec (.modmul rd ra rb rc) s
    = complete (encode (.modmul rd ra rb rc)) s
        (withModulus m (writeResult s rd (emod (bigMul a b) m))) := by
  rw [exec, execModmul, whenReady_ready hmode, withSrc_valid hra, withSrc_valid hrb, withSrc_valid hrc]

end Operands

/-- Writing a residue has no overflow test: the command answers the residue whatever the dividend. -/
theorem complete_writeResult_emod {m : BigInt} (hm : m.canonical = true) (hpos : 0 < val m) (w : Word)
    (s : State) (rd : RegId) (a : BigInt) :
    complete w s (writeResult s rd (emod a m)) = .next (wroteValue s rd (val a % val m)) := by
  rw [emod_spec hm hpos, complete_writeResult w s rd (canonical_big _), val_big]

/-- Settles O46: each command is the modulus check and its write (`exec_modn`, `exec_modmul`); the check
goes by the value of the modulus (`withModulus_of_val_pos` and its two companions), and what is written is
the residue (`complete_writeResult_emod`). -/
theorem modnAndModmulReduce : Obligations.ModnAndModmulReduce := by
  unfold Obligations.ModnAndModmulReduce
  intro s rd ra rb rc a b m hmode hra hrb hrc _ _ hm
  rw [exec_modn rd hmode hra hrc, exec_modmul rd hmode hra hrb hrc]
  refine ⟨fun hpos => ?residue, fun hzero => ?divzero, fun hneg => ?domain⟩
  case residue =>
    simp only [withModulus_of_val_pos _ hm hpos, complete_writeResult_emod hm hpos, bigMul_spec,
      val_big, and_self]
  case divzero => simp only [withModulus_of_val_zero _ hzero, complete_err, and_self]
  case domain => simp only [withModulus_of_val_neg _ hm hneg, complete_err, and_self]

end Sys2Proof.Machine
end

section
/-! SUPPORT. Proofs for 45_modexp.md: MODEXP by the sign of the exponent and of the modulus (R166,
R167). -/

namespace Sys2Proof.Machine

/-- In Ready, MODEXP of three registers that hold values is the modulus check in front of the
square-and-multiply loop and its write. -/
theorem exec_modexp {s : State} {ra rb rc : RegId} {base e m : BigInt} (rd : RegId)
    (hmode : s.mode = .ready) (hra : s.reg ra = .valid base) (hrb : s.reg rb = .valid e)
    (hrc : s.reg rc = .valid m) : exec (.modexp rd ra rb rc) s
      = complete (encode (.modexp rd ra rb rc)) s
          (withModulus m (writeResult s rd (modexp base e m))) := by
  rw [exec, execModexp, whenReady_ready hmode, withSrc_valid hra, withSrc_valid hrb, withSrc_valid hrc]

/-- Writing the power has no overflow test; an exponent of 0 or less is read as 0. -/
theorem complete_writeResult_modexp {e m : BigInt} (he : e.canonical = true) (hm : m.canonical = true)
    (hpos : 0 < val m) (w : Word) (s : State) (rd : RegId) (base : BigInt) :
    complete w s (writeResult s rd (modexp base e m))
      = .next (wroteValue s rd (val base ^ (val e).toNat % val m)) := by
  rw [modexp_spec he hm hpos, complete_writeResult w s rd (canonical_big _), val_big]

/-- Settles O47: MODEXP is the modulus check and its write (`exec_modexp`); under a positive modulus it
writes the residue of the power (`complete_writeResult_modexp`), which an exponent of 0 or less makes the
empty product, of base 0 too. -/
theorem modexpIsTheResidueOfThePower : Obligations.ModexpIsTheResidueOfThePower := by
  unfold Obligations.ModexpIsTheResidueOfThePower
  intro s rd ra rb rc base e m hmode hra hrb hrc _ he hm
  rw [exec_modexp rd hmode hra hrb hrc]
  refine ⟨fun hpos _ => ?power, fun hpos hexp => ?one, fun hzero => ?divzero, fun hneg => ?domain⟩
  case power => rw [withModulus_of_val_pos _ hm hpos, complete_writeResult_modexp he hm hpos]
  case one =>
    rw [withModulus_of_val_pos _ hm hpos, complete_writeResult_modexp he hm hpos,
      Int.toNat_of_nonpos hexp, pow_zero]
  case divzero => rw [withModulus_of_val_zero _ hzero, complete_err]
  case domain => rw [withModulus_of_val_neg _ hm hneg, complete_err]

end Sys2Proof.Machine
end

section
/-! SUPPORT. Proofs for 46_gcd_modinv.md: GCD (R175, R176), and MODINV by the modulus and by the common
divisor (R178, R179). -/

namespace Sys2Proof.Machine

/-! ### GCD (R176) -/

/-- In Ready, GCD of two registers that hold values is one write; it has no overflow test. -/
theorem exec_gcd {s : State} {ra rb : RegId} {a b : BigInt} (rd : RegId) (hmode : s.mode = .ready)
    (hra : s.reg ra = .valid a) (hrb : s.reg rb = .valid b) : exec (.gcd rd ra rb) s
      = complete (encode (.gcd rd ra rb)) s (writeResult s rd (bigGcd a b)) := by
  rw [exec, execGcd, whenReady_ready hmode, withSrc_valid hra, withSrc_valid hrb]

/-- Settles O48: GCD is one write (`exec_gcd`), of the divisor that Euclid's algorithm on the magnitudes
ends with (`bigGcd_spec`). -/
theorem gcdIsTheGreatestCommonDivisor : Obligations.GcdIsTheGreatestCommonDivisor := by
  unfold Obligations.GcdIsTheGreatestCommonDivisor
  intro s rd ra rb a b hmode hra hrb ha hb
  rw [exec_gcd rd hmode hra hrb, bigGcd_spec ha hb, complete_writeResult _ s rd (canonical_big _),
    val_big]

/-! ### MODINV (R178, R179) -/

/-- In Ready, MODINV of two registers that hold values is the modulus check in front of the extended
Euclid: its answer is written, and no answer is ERR_NOTCOPRIME. -/
theorem exec_modinv {s : State} {ra rc : RegId} {e m : BigInt} (rd : RegId) (hmode : s.mode = .ready)
    (hra : s.reg ra = .valid e) (hrc : s.reg rc = .valid m) : exec (.modinv rd ra rc) s
      = complete (encode (.modinv rd ra rc)) s
          (withModulus m ((modinv e m).elim (.err .notCoprime) (writeResult s rd))) := by
  rw [exec, execModinv, whenReady_ready hmode, withSrc_valid hra, withSrc_valid hrc]
  cases modinv e m with
  | none => rfl
  | some v => rfl

/-- Two inverses of one value under a modulus are congruent: each is congruent to its product with the
value and the other. -/
theorem modEq_of_inverses {x m d d' : Int} (h : x * d ≡ 1 [ZMOD m]) (h' : x * d' ≡ 1 [ZMOD m]) :
    d' ≡ d [ZMOD m] :=
  calc d' = d' * 1 := (mul_one d').symm
    _ ≡ d' * (x * d) [ZMOD m] := h.symm.mul_left d'
    _ = d * (x * d') := by ring
    _ ≡ d * 1 [ZMOD m] := h'.mul_left d
    _ = d := mul_one d

/-- The range `[0, m)` holds at most one inverse (R179). -/
theorem inverse_unique {x m d d' : Int} (h : x * d % m = 1 % m) (h' : x * d' % m = 1 % m)
    (hd : 0 ≤ d) (hdm : d < m) (hd' : 0 ≤ d') (hdm' : d' < m) : d' = d :=
  calc d' = d' % m := (Int.emod_eq_of_lt hd' hdm').symm
    _ = d % m := modEq_of_inverses h h'
    _ = d := Int.emod_eq_of_lt hd hdm

/-- Settles O49: MODINV is the modulus check in front of the extended Euclid (`exec_modinv`), which finds an
inverse in `[0, m)` exactly when value and modulus are coprime (`modinv_spec`); it is the only one there
(`inverse_unique`). -/
theorem modinvIsTheInverse : Obligations.ModinvIsTheInverse := by
  unfold Obligations.ModinvIsTheInverse
  intro s rd ra rc e m hmode hra hrc _ hm
  rw [exec_modinv rd hmode hra hrc, Int.gcd_comm, int_gcd_modulus_emod]
  refine ⟨fun hpos hgcd => ?inverse, fun hpos hgcd => ?notCoprime, fun hzero => ?divzero,
    fun hneg => ?domain⟩
  case inverse =>
    obtain ⟨d, hd, hd0, hdm, hinv⟩ := (modinv_spec hm hpos).2 hgcd
    refine ⟨d, hd0, hdm, hinv, fun d' h0' hm' hinv' => inverse_unique hinv hinv' hd0 hdm h0' hm', ?_⟩
    rw [withModulus_of_val_pos _ hm hpos, hd, Option.elim_some,
      complete_writeResult _ s rd (canonical_big d), val_big]
  case notCoprime =>
    rw [withModulus_of_val_pos _ hm hpos, (modinv_spec hm hpos).1 hgcd, Option.elim_none, complete_err]
  case divzero => rw [withModulus_of_val_zero _ hzero, complete_err]
  case domain => rw [withModulus_of_val_neg _ hm hneg, complete_err]

end Sys2Proof.Machine
end

section
/-! SUPPORT. Proofs for 60_exceptions.md: which words a Halted block still runs (R201, R205), how an error
ends a word (R199, R200, R202), which statuses a command raises (R191 to R198), the register checks (R197,
R203), the registers a command does not read (R25, R197), and waiting (R210). -/

namespace Sys2Proof.Machine

open Laws.OpcodeByte (opcodeOf)

/-! ### The opcodes of CLRE and RDSR (R201) -/

theorem opField_encode (i : Instr) : opField (encode i) = opcodeOf i := by
  cases i with
  | seti rd imm => exact Laws.OpcodeByte.seti rd imm
  | getd ra k => exact Laws.OpcodeByte.getd ra k
  | _ => exact opField_wordOfFields ..

theorem opField_of_decode {w : Word} {i : Instr} (h : decode w = .instr i) :
    opField w = opcodeOf i := by
  rw [← (decode_eq_instr_iff.1 h).2, opField_encode]

theorem opcodeOf_eq_clre_iff (i : Instr) : opcodeOf i = 0x01 ↔ i = .clre := by
  cases i <;> simp [opcodeOf]

theorem opcodeOf_eq_rdsr_iff (i : Instr) : opcodeOf i = 0x02 ↔ ∃ idx, i = .rdsr idx := by
  cases i <;> simp [opcodeOf]

/-! ### A Halted block on words other than CLRE and RDSR -/

/-- R201: legal or not, a word with neither opcode answers ERR_HALTED and changes nothing. -/
theorem step_halted_other {s s' : State} {w : Word} (ht : nextTurn s = .command w s')
    (hm : s'.mode = .halted) (hclre : opField w ≠ 0x01) (hrdsr : opField w ≠ 0x02) :
    step s = .next { s' with resps := s'.resps ++ [0x08000000] } := by
  cases hd : decode w with
  | instr i =>
    rw [opField_of_decode hd, ne_eq, opcodeOf_eq_clre_iff] at hclre
    rw [opField_of_decode hd, ne_eq, opcodeOf_eq_rdsr_iff, not_exists] at hrdsr
    rw [step_of_instr ht hd, exec_halted hclre hrdsr hm]
  | illegal why => rw [step_of_illegal ht hd, rejectWord_halted hm hclre hrdsr]

/-- Settles O17: by `step_halted_other`. -/
theorem haltedBlockRefusesOtherWords : Obligations.HaltedBlockRefusesOtherWords := by
  unfold Obligations.HaltedBlockRefusesOtherWords
  exact fun s w ws hh hc hm hclre hrdsr =>
    step_halted_other (nextTurn_command hh hc) hm hclre hrdsr

/-! ### How an accepted word ends (R199, R200, R202) -/

theorem response_of_raiseStatus {st : Status} {w r : Word} {s : State}
    (h : (raiseStatus st w s).resps = s.resps ++ [r]) : r = errResponse st := by
  simpa using h.symm

theorem response_of_respond {w r : Word} {s u : State} (hu : u.resps = s.resps)
    (h : (respond w u).resps = s.resps ++ [r]) : r = w := by
  simpa [hu] using h.symm

section Accepted

variable {s t : State} {w : Word} {ws : List Word}

/-- A step on the block's turn raises one status by the accepted word, on the state as it was, or
completes the decoded command with status OK. -/
theorem step_word_ends (hh : s.host = []) (hc : s.cmds = w :: ws) (h : step s = .next t) :
    (∃ st, t = raiseStatus st w { s with cmds := ws } ∧ (s.mode = .ready → st ≠ .halted))
      ∨ ∃ i u f d, decode w = .instr i ∧ t = respond (okResponse f d) u
        ∧ Ends i { s with cmds := ws } (.ok u f d) := by
  obtain ⟨i, hd, hexec⟩ | ⟨-, rfl⟩ := step_word_cases hh hc h
  · obtain ⟨st, he, hst, -⟩ | ⟨u, f, d, he, hends⟩ := exec_cases i { s with cmds := ws }
    · obtain rfl := Host.Outcome.next.inj (he.symm.trans hexec)
      exact .inl ⟨st, by rw [(decode_eq_instr_iff.1 hd).2], hst⟩
    · exact .inr ⟨i, u, f, d, hd, Host.Outcome.next.inj (hexec.symm.trans he), hends⟩
  · exact .inl (rejectWord_eq w { s with cmds := ws })

/-- An error response to an accepted word comes from a raised status. -/
theorem step_word_error {r : Word} (hh : s.host = []) (hc : s.cmds = w :: ws)
    (h : step s = .next t) (hr : t.resps = s.resps ++ [r]) (herr : respStatus r ≠ 0) :
    ∃ st, r = errResponse st ∧ t = raiseStatus st w { s with cmds := ws }
      ∧ (s.mode = .ready → st ≠ .halted) := by
  obtain ⟨st, rfl, hst⟩ | ⟨i, u, f, d, -, rfl, heff, -⟩ := step_word_ends hh hc h
  · exact ⟨st, response_of_raiseStatus hr, rfl, hst⟩
  · obtain rfl := response_of_respond heff.resps hr
    exact absurd (respStatus_okResponse f d) herr

/-- Settles O16: by `step_word_error`, and what raising a status does in each mode. -/
theorem errorLatchesAndChangesNothingElse : Obligations.ErrorLatchesAndChangesNothingElse := by
  unfold Obligations.ErrorLatchesAndChangesNothingElse
  intro s t w r ws hh hc h hr herr
  obtain ⟨st, rfl, rfl, hst⟩ := step_word_error hh hc h hr herr
  rw [respStatus_errResponse]
  exact ⟨errResponse_eq_shiftLeft st, fun hm => raiseStatus_ready w hm (hst hm),
    fun hm => raiseStatus_halted st w hm⟩

/-! ### CLRE and RDSR in Halted (R204, R205) -/

/-- A rejected word with the opcode of CLRE or RDSR raises ERR_ILLEGAL in both modes. -/
theorem rejectWord_of_opField {w : Word} (s : State) (h : opField w = 0x01 ∨ opField w = 0x02) :
    rejectWord w s = raiseStatus .illegal w s := by
  refine if_neg fun ⟨_, hclre, hrdsr⟩ => ?_
  exact h.elim hclre hrdsr

/-- A word with the opcode of CLRE other than its own is illegal: the decoder rejects it. -/
theorem step_illegal_clre (hh : s.host = []) (hc : s.cmds = w :: ws) (hop : opField w = 0x01)
    (hw : w ≠ 0x01000000) : step s = .next (raiseStatus .illegal w { s with cmds := ws }) := by
  have ht := nextTurn_command hh hc
  cases hd : decode w with
  | instr i =>
    have hi : i = .clre := (opcodeOf_eq_clre_iff i).1 ((opField_of_decode hd).symm.trans hop)
    exact absurd ((decode_eq_clre_iff w).1 (hi ▸ hd)) hw
  | illegal why => rw [step_of_illegal ht hd, rejectWord_of_opField _ (.inl hop)]

/-- A word with the opcode of RDSR above the last status register's is illegal: its index is reserved, or
the decoder rejects it. -/
theorem step_illegal_rdsr (hh : s.host = []) (hc : s.cmds = w :: ws) (hop : opField w = 0x02)
    (hw : 0x02000009 < w.toNat) : step s = .next (raiseStatus .illegal w { s with cmds := ws }) := by
  have ht := nextTurn_command hh hc
  cases hd : decode w with
  | instr i =>
    obtain ⟨idx, rfl⟩ := (opcodeOf_eq_rdsr_iff i).1 ((opField_of_decode hd).symm.trans hop)
    obtain ⟨-, he⟩ := decode_eq_instr_iff.1 hd
    obtain ⟨-, -, hword, -⟩ := encodingPutsEveryFieldInItsPlace
    have hidx : 9 < idx.toNat := by
      rw [← he, hword] at hw
      omega
    rw [step_of_instr ht hd, exec_rdsr_reserved ((statusRegister_none_iff _ idx).2 hidx), he]
  | illegal why => rw [step_of_illegal ht hd, rejectWord_of_opField _ (.inr hop)]

/-- A Halted block completes only CLRE and RDSR, which write no register. -/
theorem step_halted_regs (hh : s.host = []) (hc : s.cmds = w :: ws) (hm : s.mode = .halted)
    (h : step s = .next t) : t.regs = s.regs := by
  obtain ⟨st, rfl, -⟩ | ⟨i, u, f, d, -, rfl, heff, hrun⟩ := step_word_ends hh hc h
  · exact raiseStatus_regs ..
  · have hdest : destinations i = [] := by
      obtain rfl | ⟨idx, rfl⟩ := hrun hm
      · rfl
      · rfl
    exact regs_eq_of_reg_eq fun q => heff.others q (by simp [hdest])

/-- In Halted no word but that of CLRE touches MODE or the error record. -/
theorem step_halted_record (hh : s.host = []) (hc : s.cmds = w :: ws) (hm : s.mode = .halted)
    (hw : w ≠ 0x01000000) (h : step s = .next t) :
    t.mode = .halted ∧ t.ecode = s.ecode ∧ t.ecmd = s.ecmd := by
  obtain ⟨st, rfl, -⟩ | ⟨i, u, f, d, hd, rfl, heff, -⟩ := step_word_ends hh hc h
  · rw [raiseStatus_halted (s := s.withCmds ws) st w hm]
    exact ⟨hm, rfl, rfl⟩
  · have hi : i ≠ .clre := fun hi => hw ((decode_eq_clre_iff w).1 (hi ▸ hd))
    obtain ⟨hmode, hrecord⟩ := heff.record hi
    exact ⟨hmode.trans hm, hrecord⟩

end Accepted

/-- Settles O18: what a Halted block keeps by `step_halted_regs` and `step_halted_record`, the word of
CLRE by `exec_clre`, and the illegal words of CLRE and RDSR by a lemma each. -/
theorem errorRecordKeepsTheFirstError : Obligations.ErrorRecordKeepsTheFirstError := by
  unfold Obligations.ErrorRecordKeepsTheFirstError
  intro s t w ws hh hc hm h
  refine ⟨step_halted_regs hh hc hm h, fun hw => step_halted_record hh hc hm hw h,
    fun hw => ?clre, fun hw => ?illegal⟩
  case clre =>
    have hd := (decode_eq_clre_iff w).2 hw
    have hstep := (step_of_instr (nextTurn_command hh hc) hd).trans (exec_clre _)
    rw [okResponse_noFlags_zero] at hstep
    exact Host.Outcome.next.inj (h.symm.trans hstep)
  case illegal =>
    have hstep : step s = .next (raiseStatus .illegal w { s with cmds := ws }) := by
      obtain ⟨hop, hne⟩ | ⟨hop, hlt⟩ := hw
      · exact step_illegal_clre hh hc hop hne
      · exact step_illegal_rdsr hh hc hop hlt
    obtain rfl := Host.Outcome.next.inj (hstep.symm.trans h)
    exact raiseStatus_resps ..

/-! ### Which statuses a command raises (R191 to R198, R201) -/

/-- The statuses a command may raise: the table of R191, read by command. -/
def statusesOf : Instr → List Status
  | .clre => []
  | .rdsr _ => [.illegal]
  | .nop | .beginNum _ _ => [.halted]
  | .pushd _ _ => [.halted, .reg, .format, .overflow]
  | .endNum _ => [.halted, .reg, .format]
  | .seti _ _ => [.halted, .overflow]
  | .mov _ _ | .neg _ _ | .len _ | .cmp _ _ | .gcd _ _ _ => [.halted, .reg]
  | .getd _ _ => [.halted, .reg, .domain]
  | .add _ _ _ | .sub _ _ _ | .mul _ _ _ => [.halted, .reg, .overflow]
  | .div _ _ _ | .rem _ _ _ => [.halted, .reg, .divzero]
  | .divmod rd _ _ rc => .halted :: if rd = rc then [.illegal] else [.reg, .divzero]
  | .modn _ _ _ | .modmul _ _ _ _ | .modexp _ _ _ _ => [.halted, .reg, .divzero, .domain]
  | .modinv _ _ _ => [.halted, .reg, .divzero, .domain, .notCoprime]

/-- A command that ends so raises a status of `sts`, or completes and adds no response to those of
`s` but its own. -/
def Completion.RaisesIn (s : State) (sts : List Status) : Completion → Prop
  | .ok t _ _ => t.resps = s.resps
  | .err st => st ∈ sts

section RaisesIn

variable {sts : List Status} {s t : State} {r rd : RegId} {v m : BigInt} {c : Completion}

theorem raisesIn_ok {f : Flags} {d : Half} (h : t.resps = s.resps) :
    (Completion.ok t f d).RaisesIn s sts := h

theorem raisesIn_err {st : Status} (h : st ∈ sts) : (Completion.err st).RaisesIn s sts := h

theorem raisesIn_whenReady (hhalted : .halted ∈ sts) (h : c.RaisesIn s sts) :
    (whenReady s c).RaisesIn s sts := by
  unfold whenReady
  split
  · exact h
  · exact raisesIn_err hhalted

theorem raisesIn_withSrc {k : BigInt → Completion} (hreg : .reg ∈ sts)
    (h : ∀ v, (k v).RaisesIn s sts) : (withSrc s r k).RaisesIn s sts := by
  unfold withSrc
  split
  · exact h _
  all_goals exact raisesIn_err hreg

theorem raisesIn_withOpen {k : Bool → List Digit → Completion} (hreg : .reg ∈ sts)
    (h : ∀ b ds, (k b ds).RaisesIn s sts) : (withOpen s r k).RaisesIn s sts := by
  unfold withOpen
  split
  · exact h _ _
  all_goals exact raisesIn_err hreg

theorem raisesIn_writeResult : (writeResult s rd v).RaisesIn s sts := raisesIn_ok rfl

theorem raisesIn_writeChecked (hoverflow : .overflow ∈ sts) :
    (writeChecked s rd v).RaisesIn s sts := by
  unfold writeChecked
  split
  · exact raisesIn_err hoverflow
  · exact raisesIn_writeResult

theorem raisesIn_withModulus (hdivzero : .divzero ∈ sts) (hdomain : .domain ∈ sts)
    (h : c.RaisesIn s sts) : (withModulus m c).RaisesIn s sts := by
  unfold withModulus
  repeat' split
  · exact raisesIn_err hdivzero
  · exact raisesIn_err hdomain
  · exact h

theorem raisesIn_withDivisor (hdivzero : .divzero ∈ sts) (h : c.RaisesIn s sts) :
    (withDivisor m c).RaisesIn s sts := by
  unfold withDivisor
  split
  · exact raisesIn_err hdivzero
  · exact h

end RaisesIn

/-- Every command raises a status of its own list, or completes. -/
theorem exec_raisesIn (i : Instr) (s : State) :
    ∃ c, exec i s = complete (encode i) s c ∧ c.RaisesIn s (statusesOf i) := by
  cases i <;> simp only [statusesOf]
  case clre => exact ⟨.ok (clearError s) noFlags 0, rfl, raisesIn_ok rfl⟩
  case rdsr idx =>
    refine ⟨_, rfl, ?_⟩
    cases statusRegister s idx with
    | some v => exact raisesIn_ok rfl
    | none => exact raisesIn_err (by decide)
  all_goals refine ⟨_, rfl, raisesIn_whenReady List.mem_cons_self ?_⟩
  case nop | beginNum => exact raisesIn_ok rfl
  case seti => exact raisesIn_writeChecked (by decide)
  case pushd =>
    refine raisesIn_withOpen (by decide) fun b ds => ?_
    repeat' split
    · exact raisesIn_err (by decide)
    · exact raisesIn_err (by decide)
    · exact raisesIn_ok rfl
  case endNum =>
    refine raisesIn_withOpen (by decide) fun b ds => ?_
    split
    · exact raisesIn_err (by decide)
    · exact raisesIn_writeResult
  case divmod =>
    split
    · exact raisesIn_err (by decide)
    · exact raisesIn_withSrc (by decide) fun a => raisesIn_withSrc (by decide) fun b =>
        raisesIn_withDivisor (by decide) (raisesIn_ok rfl)
  all_goals refine raisesIn_withSrc (by decide) fun a => ?_
  case mov | neg => exact raisesIn_writeResult
  case len => exact raisesIn_ok rfl
  case getd =>
    split
    · exact raisesIn_err (by decide)
    · exact raisesIn_ok rfl
  all_goals refine raisesIn_withSrc (by decide) fun b => ?_
  case cmp => exact raisesIn_ok rfl
  case gcd => exact raisesIn_writeResult
  case add | sub | mul => exact raisesIn_writeChecked (by decide)
  case div | rem => exact raisesIn_withDivisor (by decide) raisesIn_writeResult
  case modn => exact raisesIn_withModulus (by decide) (by decide) raisesIn_writeResult
  case modinv =>
    refine raisesIn_withModulus (by decide) (by decide) ?_
    split
    · exact raisesIn_writeResult
    · exact raisesIn_err (by decide)
  case modmul | modexp =>
    exact raisesIn_withSrc (by decide) fun m =>
      raisesIn_withModulus (by decide) (by decide) raisesIn_writeResult

/-- The codes of R191 number the statuses in order, from 1. -/
theorem ofNat_code (st : Status) : Status.ofNat (st.code.toNat - 1) = st := by
  cases st <;> rfl

theorem errResponse_injective : Function.Injective errResponse := fun st st' h => by
  have hcode : st.code = st'.code := by
    rw [← respStatus_errResponse, h, respStatus_errResponse]
  rw [← ofNat_code st, hcode, ofNat_code]

theorem errResponse_ne_okResponse (st : Status) (f : Flags) (d : Half) :
    errResponse st ≠ okResponse f d := fun h =>
  code_ne_zero st (by rw [← respStatus_errResponse, h, respStatus_okResponse])

/-- The error response of a command is that of a status of its list. -/
theorem mem_statusesOf {i : Instr} {s t : State} {st : Status} (h : exec i s = .next t)
    (hr : t.resps = s.resps ++ [errResponse st]) : st ∈ statusesOf i := by
  obtain ⟨c, he, hc⟩ := exec_raisesIn i s
  cases c with
  | ok u f d =>
    obtain rfl := Host.Outcome.next.inj (he.symm.trans h)
    exact absurd (response_of_respond hc hr) (errResponse_ne_okResponse st f d)
  | err st' =>
    obtain rfl := Host.Outcome.next.inj (he.symm.trans h)
    exact errResponse_injective (response_of_raiseStatus hr) ▸ hc

/-- Only a Halted block answers ERR_HALTED. -/
theorem mode_of_errResponse_halted {i : Instr} {s t : State} (h : exec i s = .next t)
    (hr : t.resps = s.resps ++ [errResponse .halted]) : s.mode = .halted := by
  obtain ⟨st, he, hst, -⟩ | ⟨u, f, d, he, heff, -⟩ := exec_cases i s
  · obtain rfl := Host.Outcome.next.inj (he.symm.trans h)
    have heq : .halted = st := errResponse_injective (response_of_raiseStatus hr)
    cases hm : s.mode with
    | halted => rfl
    | ready => exact absurd heq.symm (hst hm)
  · obtain rfl := Host.Outcome.next.inj (he.symm.trans h)
    exact absurd (response_of_respond heff.resps hr) (errResponse_ne_okResponse .halted f d)

/-- Settles O21: the status is in the command's list (`mem_statusesOf`), and each clause reads off the
lists that hold it; the mode of ERR_HALTED is `mode_of_errResponse_halted`. -/
theorem statusesRaisedByTheirCommandsOnly : Obligations.StatusesRaisedByTheirCommandsOnly := by
  unfold Obligations.StatusesRaisedByTheirCommandsOnly
  intro i s t st h hr
  have hmem := mem_statusesOf h hr
  refine ⟨?format, ?divzero, ?notCoprime, ?overflow, ?domain, ?reg, ?illegal, ?halted⟩ <;> rintro rfl
  case halted =>
    refine ⟨mode_of_errResponse_halted h hr, ?clre, ?rdsr⟩
    case clre =>
      rintro rfl
      simp [statusesOf] at hmem
    case rdsr =>
      rintro idx rfl
      simp [statusesOf] at hmem
  all_goals
    revert hmem
    clear h hr
    cases i
    case divmod rd ra rb rc => by_cases hd : rd = rc <;> simp [statusesOf, sources, Instr.wf, hd]
    all_goals simp [statusesOf, sources]

/-! ### The register checks (R197, R203) -/

/-- A source check with nothing to raise but ERR_REG behind it. -/
theorem withSrc_err_reg {s : State} {r : RegId} {k : BigInt → Completion}
    (h : (s.reg r).isValid = false ∨ ∀ v, k v = .err .reg) : withSrc s r k = .err .reg := by
  obtain h | h := h
  · exact withSrc_not_valid h
  · unfold withSrc
    split
    · exact h _
    all_goals rfl

/-- R203: whichever source is not Valid, the sources are checked before anything else. -/
theorem exec_source_not_valid {i : Instr} {s : State} (hm : s.mode = .ready) (hwf : i.wf = true)
    (h : ∃ r ∈ sources i, (s.reg r).isValid = false) :
    exec i s = .next (raiseStatus .reg (encode i) s) := by
  have hend : ∀ c, c = .err .reg →
      complete (encode i) s (whenReady s c) = .next (raiseStatus .reg (encode i) s) := by
    rintro c rfl
    rw [whenReady_ready hm, complete_err]
  cases i <;> simp only [sources, List.mem_cons, List.not_mem_nil, or_false, exists_eq_or_imp,
    exists_eq_left, false_and, exists_false] at h
  all_goals refine hend _ ?_
  case mov | neg | len | getd => exact withSrc_not_valid h
  case divmod =>
    rw [if_neg (of_decide_eq_true hwf)]
    exact withSrc_err_reg (h.imp_right fun h _ => withSrc_not_valid h)
  case modmul | modexp =>
    exact withSrc_err_reg (h.imp_right fun h _ =>
      withSrc_err_reg (h.imp_right fun h _ => withSrc_not_valid h))
  all_goals exact withSrc_err_reg (h.imp_right fun h _ => withSrc_not_valid h)

/-- Settles O22: by `exec_source_not_valid`, and the target checks of PUSHD and END. -/
theorem wrongRegisterStateRaisesErrReg : Obligations.WrongRegisterStateRaisesErrReg := by
  unfold Obligations.WrongRegisterStateRaisesErrReg
  exact ⟨fun i s => exec_source_not_valid, fun rd s hm hr =>
    ⟨fun c => exec_pushd_not_opened c hm hr, exec_endNum_not_opened hm hr⟩⟩

/-! ### Registers a command does not read (R25, R197) -/

theorem setReg_setReg_self (s : State) (r : RegId) (x v : RegState) :
    (s.setReg r x).setReg r v = s.setReg r v := by
  simp [State.setReg, Vector.set_set]

theorem setReg_comm (s : State) {r q : RegId} (x v : RegState) (h : q ≠ r) :
    (s.setReg r x).setReg q v = (s.setReg q v).setReg r x := by
  simp only [State.setReg, Vector.set_comm _ _ (Fin.val_ne_of_ne h).symm]

/-- `t` is reached from `s`, and `u` from `s` with `x` in register `r`: they differ in that register
alone, which both have left as it was, or in nothing. -/
def DifferAt (r : RegId) (x : RegState) (s t u : State) : Prop :=
  (t.reg r = s.reg r ∧ u = t.setReg r x) ∨ u = t

/-- Two ends of a command, from `s` and from `s` with `x` in register `r`: the same answer, and effects
that differ in nothing else. -/
inductive Completion.DifferAt (r : RegId) (x : RegState) (s : State) :
    Completion → Completion → Prop
  | ok {t u : State} (f : Flags) (d : Half) (h : Machine.DifferAt r x s t u) :
      Completion.DifferAt r x s (.ok t f d) (.ok u f d)
  | err (st : Status) : Completion.DifferAt r x s (.err st) (.err st)

section DifferAt

variable {r q rd : RegId} {x : RegState} {s t u : State} {c c' : Completion} {m v : BigInt}

theorem differAt_self : DifferAt r x s s (s.setReg r x) := .inl ⟨rfl, rfl⟩

theorem differAt_setReg (v : RegState) (h : DifferAt r x s t u) :
    DifferAt r x s (t.setReg q v) (u.setReg q v) := by
  obtain ⟨ht, rfl⟩ | rfl := h
  · by_cases hq : q = r
    · subst hq
      exact .inr (setReg_setReg_self ..)
    · exact .inl ⟨(reg_setReg_ne t v (Ne.symm hq)).trans ht, setReg_comm t x v hq⟩
  · exact .inr rfl

theorem differAt_respond (w : Word) (h : DifferAt r x s t u) :
    DifferAt r x s (respond w t) (respond w u) := by
  obtain ⟨ht, rfl⟩ | rfl := h
  · exact .inl ⟨ht, rfl⟩
  · exact .inr rfl

theorem differAt_complete (w : Word) (h : c.DifferAt r x s c') :
    ∃ t u, complete w s c = .next t ∧ complete w (s.setReg r x) c' = .next u
      ∧ DifferAt r x s t u := by
  cases h with
  | ok f d h => exact ⟨_, _, rfl, rfl, differAt_respond _ h⟩
  | err st => exact ⟨_, _, rfl, rfl, .inl ⟨raiseStatus_reg .., raiseStatus_setReg ..⟩⟩

theorem differAt_whenReady (h : c.DifferAt r x s c') :
    (whenReady s c).DifferAt r x s (whenReady (s.setReg r x) c') := by
  unfold whenReady
  rw [setReg_mode]
  split
  · exact h
  · exact .err _

theorem differAt_withSrc {k k' : BigInt → Completion} (hq : q ≠ r)
    (h : ∀ v, (k v).DifferAt r x s (k' v)) :
    (withSrc s q k).DifferAt r x s (withSrc (s.setReg r x) q k') := by
  unfold withSrc
  rw [reg_setReg_ne s x hq]
  split
  · exact h _
  all_goals exact .err _

theorem differAt_withOpen {k k' : Bool → List Digit → Completion} (hq : q ≠ r)
    (h : ∀ b ds, (k b ds).DifferAt r x s (k' b ds)) :
    (withOpen s q k).DifferAt r x s (withOpen (s.setReg r x) q k') := by
  unfold withOpen
  rw [reg_setReg_ne s x hq]
  split
  · exact h _ _
  all_goals exact .err _

theorem differAt_writeResult :
    (writeResult s rd v).DifferAt r x s (writeResult (s.setReg r x) rd v) :=
  .ok _ _ (differAt_setReg _ differAt_self)

theorem differAt_writeChecked :
    (writeChecked s rd v).DifferAt r x s (writeChecked (s.setReg r x) rd v) := by
  unfold writeChecked
  rw [setReg_cfg]
  split
  · exact .err _
  · exact differAt_writeResult

theorem differAt_withModulus (h : c.DifferAt r x s c') :
    (withModulus m c).DifferAt r x s (withModulus m c') := by
  unfold withModulus
  repeat' split
  · exact .err _
  · exact .err _
  · exact h

theorem differAt_withDivisor (h : c.DifferAt r x s c') :
    (withDivisor m c).DifferAt r x s (withDivisor m c') := by
  unfold withDivisor
  split
  · exact .err _
  · exact h

end DifferAt

/-- A command ends the same whatever a register holds that it neither reads nor extends. -/
theorem exec_differAt {i : Instr} (s : State) {r : RegId} (x : RegState) (hr : r ∉ sources i)
    (hrdsr : ∀ idx, i ≠ .rdsr idx) (hpushd : ∀ c, i ≠ .pushd r c) (hend : i ≠ .endNum r) :
    ∃ c c', exec i s = complete (encode i) s c
      ∧ exec i (s.setReg r x) = complete (encode i) (s.setReg r x) c' ∧ c.DifferAt r x s c' := by
  cases i
  case clre =>
    exact ⟨.ok (clearError s) noFlags 0, .ok (clearError (s.setReg r x)) noFlags 0, rfl, rfl,
      .ok _ _ (.inl ⟨rfl, rfl⟩)⟩
  case rdsr idx => exact absurd rfl (hrdsr idx)
  all_goals refine ⟨_, _, rfl, rfl, differAt_whenReady ?_⟩
  case nop => exact .ok _ _ differAt_self
  case beginNum => exact .ok _ _ (differAt_setReg _ differAt_self)
  case seti => exact differAt_writeChecked
  case pushd rd code =>
    refine differAt_withOpen (fun h => hpushd code (h ▸ rfl)) fun b ds => ?_
    rw [setReg_cfg]
    repeat' split
    · exact .err _
    · exact .err _
    · exact .ok _ _ (differAt_setReg _ differAt_self)
  case endNum rd =>
    refine differAt_withOpen (fun h => hend (h ▸ rfl)) fun b ds => ?_
    cases ds with
    | nil => exact .err _
    | cons d ds => exact differAt_writeResult
  case divmod =>
    split
    · exact .err _
    · exact differAt_withSrc (ne_of_mem_of_not_mem (by simp [sources]) hr) fun a =>
        differAt_withSrc (ne_of_mem_of_not_mem (by simp [sources]) hr) fun b =>
        differAt_withDivisor (.ok _ _ (differAt_setReg _ (differAt_setReg _ differAt_self)))
  all_goals refine differAt_withSrc (ne_of_mem_of_not_mem (by simp [sources]) hr) fun a => ?_
  case mov | neg => exact differAt_writeResult
  case len => exact .ok _ _ differAt_self
  case getd =>
    split
    · exact .err _
    · exact .ok _ _ differAt_self
  all_goals refine differAt_withSrc (ne_of_mem_of_not_mem (by simp [sources]) hr) fun b => ?_
  case cmp => exact .ok _ _ differAt_self
  case add | sub | mul => exact differAt_writeChecked
  case gcd => exact differAt_writeResult
  case div | rem => exact differAt_withDivisor differAt_writeResult
  case modn => exact differAt_withModulus differAt_writeResult
  case modinv =>
    refine differAt_withModulus ?_
    split
    · exact differAt_writeResult
    · exact .err _
  case modmul | modexp =>
    exact differAt_withSrc (ne_of_mem_of_not_mem (by simp [sources]) hr) fun m =>
      differAt_withModulus differAt_writeResult

/-- Settles O23: the two ends differ in the register alone (`exec_differAt`), so the next states do
(`differAt_complete`). -/
theorem unreadRegistersDoNotMatter : Obligations.UnreadRegistersDoNotMatter := by
  unfold Obligations.UnreadRegistersDoNotMatter
  intro i s r x hr hrdsr hpushd hend
  obtain ⟨c, c', he, he', hc⟩ := exec_differAt s x hr hrdsr hpushd hend
  obtain ⟨t, u, ht, hu, ⟨hreg, rfl⟩ | rfl⟩ := differAt_complete (encode i) hc
  · exact ⟨t, _, he.trans ht, he'.trans hu, rfl, rfl, rfl, rfl, fun q hq => reg_setReg_ne t x hq,
      .inl ⟨hreg, reg_setReg_self ..⟩⟩
  · exact ⟨u, u, he.trans ht, he'.trans hu, rfl, rfl, rfl, rfl, fun _ _ => rfl, .inr rfl⟩

/-! ### Waiting (R210) -/

theorem step_of_idle {s s' : State} (ht : nextTurn s = .idle s') : step s = .next s' := by
  simp only [step, ht]

theorem blockTurn_idle {s : State} (hc : s.cmds = []) : blockTurn s = .idle s := by
  simp only [blockTurn, hc]

/-- Settles O15: with no word to accept the block's turn is idle, on its own and on the host's `wait`. -/
theorem idleBlockChangesNothing : Obligations.IdleBlockChangesNothing := by
  unfold Obligations.IdleBlockChangesNothing
  refine fun s hc => ⟨fun hh => step_of_idle ?own, fun es hh => step_of_idle ?wait⟩
  case own | wait =>
    simp only [nextTurn, hh]
    exact blockTurn_idle hc

end Sys2Proof.Machine
end

section
/-! SUPPORT. Proofs for 70_reset_and_hazards.md: the host's actions and reset (R215, R216), words queued
behind a failing command (R219), and that every word has its outcome (R222). -/

namespace Sys2Proof.Machine

/-- Settles O12: the kinds of a step (`step_cases`) all end in a next state, and a word that stands in
front of the queue is answered as an offered one (`step_offerNext_answers`). -/
theorem everyCommandAnswersOnce : Obligations.EveryCommandAnswersOnce := by
  unfold Obligations.EveryCommandAnswersOnce
  refine ⟨fun s => ?total, fun s w ws hh hc => ?once⟩
  case total =>
    obtain ⟨cs, es, ⟨e, -, -, -, hstep⟩ | ⟨-, -, -, hstep⟩
      | ⟨w, -, -, ⟨i, -, hstep⟩ | ⟨why, -, hstep⟩⟩⟩ := step_cases s
    case inr.inr.inl =>
      obtain ⟨r, t, hexec, -⟩ := exec_answers i { s with cmds := cs, host := es }
      exact ⟨t, hstep.trans hexec⟩
    all_goals exact ⟨_, hstep⟩
  case once =>
    obtain ⟨r, t, hstep, ht⟩ := step_offerNext_answers w (s.withCmds ws)
    exact ⟨r, t, (step_queued hh hc).trans hstep, ht.cmds, ht.resps, ht.host.trans hh, ht.cfg⟩

/-- A run of words other than those of CLRE and RDSR leaves a Halted block as it was. -/
theorem runWords_halted {ws : List Word} {s : State} (hm : s.mode = .halted)
    (hws : ∀ w ∈ ws, opField w ≠ 0x01 ∧ opField w ≠ 0x02) :
    runWords ws s
      = .next { s with resps := s.resps ++ List.replicate ws.length (0x08000000 : Word) } := by
  induction ws generalizing s with
  | nil => simp [runWords]
  | cons w ws ih =>
    obtain ⟨⟨hclre, hrdsr⟩, hws⟩ := List.forall_mem_cons.1 hws
    have hstep := step_halted_other (nextTurn_offerNext w s) hm hclre hrdsr
    have hm' : ({ s with resps := s.resps ++ [0x08000000] } : State).mode = .halted := hm
    rw [runWords_cons hstep, ih hm' hws, List.append_assoc, List.length_cons, List.replicate_succ,
      List.singleton_append]

/-- Settles O20: by `runWords_halted`; the steps that drain the words from the channel end as the run does
(`runSteps_of_runWords`). -/
theorem queuedCommandsDoNotRunWhileHalted : Obligations.QueuedCommandsDoNotRunWhileHalted := by
  unfold Obligations.QueuedCommandsDoNotRunWhileHalted
  refine fun ws s hm hws => ⟨runWords_halted hm hws, fun behind hh hc => ?_⟩
  have hs : (s.withCmds behind).withCmds (ws ++ behind) = s := by rw [← hc]
  have hrun := runSteps_of_runWords (s := s.withCmds behind) hh (runWords_halted hm hws)
  rwa [hs] at hrun

/-- Settles O14: each action by `step_host`; what it does is `hostAct`. -/
theorem hostActionsAndReset : Obligations.HostActionsAndReset := by
  unfold Obligations.HostActionsAndReset
  refine fun s es => ⟨fun hh => ?reset, fun w hh => ?issue, fun r rs hh hr => ?take,
    fun hh hr => ?takeEmpty⟩ <;> rw [step_host hh (by simp)]
  case reset | issue => rfl
  case take | takeEmpty => simp [hostAct, hr]

end Sys2Proof.Machine
end
